-- ==== Sys2Proof/Word.lean ====
section
/-! DEFINITION. The word and byte types of the engine and its two fixed-size vectors
(spec 00_scope.md rules R6 and R7). -/

namespace Sys2Proof

/-- A 32-bit word, bit 0 least significant (R7). -/
abbrev Word := BitVec 32

/-- An 8-bit byte, unsigned (R7). -/
abbrev Byte := BitVec 8

/-- A block: exactly 64 bytes (R6, R57). -/
abbrev Block := Vector Byte 64

/-- The eight state words H[0..7] (R6, R24). -/
abbrev HashState := Vector Word 8

end Sys2Proof
end

