-- ==== Sys2Proof/Machine/Bytes.lean ====
section
/-! DEFINITION. The conversions between bytes and multi-byte quantities, all big-endian
(spec 00_scope.md rule R9, 20_memory.md rules R34 and R35), and the byte view of a block (10_state.md rule R22). -/

namespace Sys2Proof.Machine

/-- Four bytes to a word, the first byte most significant: the bytes laid side by side, whose value is
R9's sum b0 * 2^24 + b1 * 2^16 + b2 * 2^8 + b3 (`be32_toNat`). -/
def be32 (b0 b1 b2 b3 : Byte) : Word := b0 ++ b1 ++ b2 ++ b3

/-- A word to four bytes, most significant first (R9). -/
def be32Bytes (w : Word) : List Byte :=
  [w.extractLsb' 24 8, w.extractLsb' 16 8, w.extractLsb' 8 8, w.extractLsb' 0 8]

/-- A 64-bit value to eight bytes, most significant first (R9). -/
def be64Bytes (v : BitVec 64) : List Byte :=
  [v.extractLsb' 56 8, v.extractLsb' 48 8, v.extractLsb' 40 8, v.extractLsb' 32 8,
   v.extractLsb' 24 8, v.extractLsb' 16 8, v.extractLsb' 8 8, v.extractLsb' 0 8]

/-- The block of the first 64 bytes of a byte sequence. It is used on sequences of at least 64 bytes
only; the value given for a missing byte is never looked at. -/
def blockOfBytes (l : List Byte) : Block :=
  Vector.ofFn fun i => l.getD i.val 0

/-- The block with the bytes `bs` written from index `start` upward, the others kept (the loops
`BUF[start + j] <- bs[j]` of R77 and R85). Bytes past index 63 are dropped; no caller has any. -/
def overwrite (blk : Block) (start : Nat) (bs : List Byte) : Block :=
  Vector.ofFn fun i =>
    if start ≤ i.val ∧ i.val < start + bs.length then bs.getD (i.val - start) 0 else blk[i]

/-- Word t of a block's word view, composed big-endian from its bytes (R22, R65). -/
def blockWord (blk : Block) (t : Fin 16) : Word :=
  be32 blk[4 * t.val] blk[4 * t.val + 1] blk[4 * t.val + 2] blk[4 * t.val + 3]

end Sys2Proof.Machine
end

