-- ==== Sys2Proof/Config.lean ====
section
/-! DEFINITION. What is fixed for the engine (spec 00_scope.md rule R6), and the values this model
names for the registers to which the spec gives no value after a hardware reset. -/

namespace Sys2Proof.Config

/-- MAX_UPDATE_LEN, the largest UPDATE payload of one command, 2^24 - 1 bytes (R6, R48). -/
abbrev maxUpdateLen : Nat := 16777215

/-- The padding marker byte (R6, R86). -/
abbrev markerByte : Byte := 0x80

/-- The fill from which marker and length no longer fit in one block (R88). -/
abbrev spillFill : Nat := 56

/-- DESIGN CHOICE, unsafe (log entry 1): each word of H after a hardware reset. The spec gives no value (R30). -/
abbrev resetHashWord : Word := 0

/-- DESIGN CHOICE, unsafe (log entry 1): each byte of BUF after a hardware reset. The spec gives no value (R30). -/
abbrev resetBufByte : Byte := 0

/-- DESIGN CHOICE, unsafe (log entry 1): TOTAL_LEN after a hardware reset. The spec gives no value (R30). -/
abbrev resetTotalLen : BitVec 64 := 0

/-- DESIGN CHOICE, unsafe (log entry 1): DIGEST_LEN after a hardware reset. The spec gives no value (R30);
its legal values are 28 and 32 only (R17). -/
abbrev resetDigestLen : BitVec 6 := 32

end Sys2Proof.Config
end

