-- ==== Sys2Proof/Syntax.lean ====
section
/-! DEFINITION. The commands of the engine: one constructor per row of spec/opcode_table.json
(spec 30_encoding.md rules R46 to R49). -/

namespace Sys2Proof

/-- A whole command, header and payload (R44). A reserved header is no command (R50): the decoder
rejects it by name, and the step answers it. -/
inductive Instr where
  /-- INIT with its 24-bit VARIANT argument; no value of it is reserved (R47, R73). -/
  | init (variant : BitVec 24)
  /-- UPDATE with its payload bytes in stream order; LEN is their number (R48, R76). -/
  | update (data : List Byte)
  /-- FINAL, no operand (R49, R84). -/
  | final
deriving DecidableEq, Repr

end Sys2Proof
end

