-- ==== Sys2Proof/WellFormed.lean ====
section
/-! DEFINITION. Which commands the encoding can express (spec 30_encoding.md rules R47 to R49). -/

namespace Sys2Proof

/-- The one check: an UPDATE carries at most MAX_UPDATE_LEN payload bytes, since LEN is a 24-bit
field (R48, R102). Every INIT argument is legal (R47) and FINAL has no operand (R49). -/
def Instr.wf : Instr → Bool
  | .init _ => true
  | .update data => decide (data.length ≤ Config.maxUpdateLen)
  | .final => true

end Sys2Proof
end

