-- ==== Sys2Proof/Decode.lean ====
section
/-! DEFINITION. The decoder, total on every byte sequence, and the encoder (spec 30_encoding.md
rules R44 to R52). The header is one 32-bit word sent most significant byte first (R45). -/

namespace Sys2Proof

open Sys2Proof.Machine

/-- The header field OPC, bits 31:24 (R45). -/
def headerOpc (hdr : Word) : BitVec 8 := hdr.extractLsb' 24 8

/-- The header field ARG, bits 23:0 (R45). -/
def headerArg (hdr : Word) : BitVec 24 := hdr.extractLsb' 0 24

/-- Why a header is reserved (R50). -/
inductive Reserved where
  /-- OPC is 0x00 or 0x04 to 0xFF. -/
  | opcode (opc : BitVec 8)
  /-- OPC is 0x03 and ARG is not 0 (R49). -/
  | finalArgument (arg : BitVec 24)
deriving DecidableEq, Repr

/-- What a header decodes to (R51). -/
inductive Header where
  | init (variant : BitVec 24)
  | update (len : BitVec 24)
  | final
  | illegal (why : Reserved)
deriving DecidableEq, Repr

/-- Header decoding, a total function of the 32-bit header (R51). -/
def decodeHeader (hdr : Word) : Header :=
  if headerOpc hdr = 0x01 then .init (headerArg hdr)
  else if headerOpc hdr = 0x02 then .update (headerArg hdr)
  else if headerOpc hdr = 0x03 then
    if headerArg hdr = 0 then .final else .illegal (.finalArgument (headerArg hdr))
  else .illegal (.opcode (headerOpc hdr))

/-- What the front of the command stream holds (R44). -/
inductive Decoded where
  /-- A whole command, and the bytes after it. -/
  | command (i : Instr) (rest : List Byte)
  /-- A reserved header, a complete command of 4 bytes with no payload, and the bytes after it (R50). -/
  | reserved (why : Reserved) (rest : List Byte)
  /-- Fewer than the 4 bytes of a header. -/
  | shortHeader
  /-- An UPDATE header with fewer than LEN payload bytes after it. -/
  | shortPayload (len : BitVec 24)
deriving DecidableEq, Repr

/-- The first command of a byte stream; the next header starts right after it (R44, R51, R52). -/
def decode : List Byte → Decoded
  | b0 :: b1 :: b2 :: b3 :: rest =>
    match decodeHeader (be32 b0 b1 b2 b3) with
    | .init variant => .command (.init variant) rest
    | .update len =>
      if len.toNat ≤ rest.length then .command (.update (rest.take len.toNat)) (rest.drop len.toNat)
      else .shortPayload len
    | .final => .command .final rest
    | .illegal why => .reserved why rest
  | _ => .shortHeader

/-- The header word of a command (R45, R46). -/
def encodeHeader : Instr → Word
  | .init variant => (0x01 : BitVec 8) ++ variant
  | .update data => (0x02 : BitVec 8) ++ BitVec.ofNat 24 data.length
  | .final => 0x03000000

/-- The payload of a command (R44). -/
def payload : Instr → List Byte
  | .init _ => []
  | .update data => data
  | .final => []

/-- The bytes of a command, header first (R44, R45). -/
def encode (i : Instr) : List Byte := be32Bytes (encodeHeader i) ++ payload i

/-- The bytes of the command whose bits are `w`, numbered as spec/opcode_table.json numbers them: the
header is bits 31:0. The table gives the payload of an UPDATE no bits, so its LEN payload bytes are
taken from the bits above, which are 0 from bit `nbits` up. -/
def tableBytes (nbits w : Nat) : List Byte :=
  let v := w % 2 ^ nbits
  let hdr : Word := BitVec.ofNat 32 v
  match decodeHeader hdr with
  | .update len => be32Bytes hdr ++ (List.range len.toNat).map fun k => BitVec.ofNat 8 (v >>> (32 + 8 * k))
  | _ => be32Bytes hdr

/-- The command this decoder reads from the bits of a table row. -/
def decodeTableWord (nbits w : Nat) : Option Instr :=
  match decode (tableBytes nbits w) with
  | .command i _ => some i
  | _ => none

end Sys2Proof
end

