-- ==== Sys2Proof/Machine/Rom.lean ====
section
/-! DEFINITION. The two read-only memories: round constants, computed by the definition that spec
40_compression.md rule R64 gives, and initial hash values (41_init.md rule R72). No command writes either (R25). -/

namespace Sys2Proof.Machine

/-- The largest c + x with x < 2^k whose cube is at most n, given that the cube of c is: bit k - 1 of x is
decided first. -/
def icbrtBits (n : Nat) : Nat → Nat → Nat
  | 0, c => c
  | k + 1, c => icbrtBits n k (if (c + 2 ^ k) ^ 3 ≤ n then c + 2 ^ k else c)

/-- icbrt(n), the largest integer whose cube is at most n, for n below 2^105 (R64). -/
def icbrt (n : Nat) : Nat := icbrtBits n 35 0

/-- The primes p_0 to p_63, the second column of R64's table, 16 in each of its four parts. -/
def romPrimes : List Nat :=
  [2, 3, 5, 7, 11, 13, 17, 19, 23, 29, 31, 37, 41, 43, 47, 53] ++
  [59, 61, 67, 71, 73, 79, 83, 89, 97, 101, 103, 107, 109, 113, 127, 131] ++
  [137, 139, 149, 151, 157, 163, 167, 173, 179, 181, 191, 193, 197, 199, 211, 223] ++
  [227, 229, 233, 239, 241, 251, 257, 263, 269, 271, 277, 281, 283, 293, 307, 311]

/-- Round constant r, icbrt(p_r * 2^96) mod 2^32 (R64). The engine reads r = 0..63 only; the value given
past the end is never used. -/
def roundConstant (r : Nat) : Word := BitVec.ofNat 32 (icbrt (romPrimes.getD r 0 * 2 ^ 96))

/-- The round-constant ROM K[0..63] (R64). Its contents are the values R64 lists, which the spec computed
from the same definition. -/
def kRom : Vector Word 64 := Vector.ofFn fun r => roundConstant r

/-- The IV ROM's vector for SHA-256 (R72). -/
def iv256 : HashState := #v[
  0x6a09e667, 0xbb67ae85, 0x3c6ef372, 0xa54ff53a, 0x510e527f, 0x9b05688c, 0x1f83d9ab, 0x5be0cd19]

/-- The IV ROM's vector for SHA-224 (R72). -/
def iv224 : HashState := #v[
  0xc1059ed8, 0x367cd507, 0x3070dd17, 0xf70e5939, 0xffc00b31, 0x68581511, 0x64f98fa7, 0xbefa4fa4]

end Sys2Proof.Machine
end

