-- ==== Sys2Proof/Machine/Compression.lean ====
section
/-! DEFINITION. The compression function (spec 40_compression.md rules R57 to R70): the bit functions,
the message schedule, the rounds and the feed-forward. It is pure and reads only its arguments and the K ROM. -/

namespace Sys2Proof.Machine

/-- 32-bit right rotation, used with 0 < n < 32 only (R8). -/
def rotr (x : Word) (n : Nat) : Word := (x >>> n) ||| (x <<< (32 - n))

/-- Choose (R58). -/
def ch (x y z : Word) : Word := (x &&& y) ^^^ (~~~x &&& z)

/-- Majority (R59). -/
def maj (x y z : Word) : Word := (x &&& y) ^^^ (x &&& z) ^^^ (y &&& z)

/-- Upper sigma zero (R60). -/
def bigSigma0 (x : Word) : Word := rotr x 2 ^^^ rotr x 13 ^^^ rotr x 22

/-- Upper sigma one (R61). -/
def bigSigma1 (x : Word) : Word := rotr x 6 ^^^ rotr x 11 ^^^ rotr x 25

/-- Lower sigma zero; the third term is a logical shift (R62). -/
def smallSigma0 (x : Word) : Word := rotr x 7 ^^^ rotr x 18 ^^^ (x >>> 3)

/-- Lower sigma one; the third term is a logical shift (R63). -/
def smallSigma1 (x : Word) : Word := rotr x 17 ^^^ rotr x 19 ^^^ (x >>> 10)

/-- The schedule's first 16 words, the block's word view (R65). -/
def blockWords (blk : Block) : List Word := (List.finRange 16).map (blockWord blk)

/-- The schedule word n from the n words before it, n ≥ 16 (R65). -/
def nextScheduleWord (ws : List Word) : Word :=
  smallSigma1 (ws.getD (ws.length - 2) 0) + ws.getD (ws.length - 7) 0
    + smallSigma0 (ws.getD (ws.length - 15) 0) + ws.getD (ws.length - 16) 0

/-- One more schedule word (R65). -/
def extendSchedule (ws : List Word) : List Word := ws ++ [nextScheduleWord ws]

/-- The message schedule W[0..63]: 16 block words and 48 computed ones (R65). -/
def schedule (blk : Block) : List Word := extendSchedule^[48] (blockWords blk)

/-- The working variables a to h (R26). They live inside one Compress only. -/
structure Working where
  (a b c d e f g h : Word)
deriving DecidableEq, Repr

/-- The working variables loaded from a state (R69). -/
def Working.load (s : HashState) : Working := ⟨s[0], s[1], s[2], s[3], s[4], s[5], s[6], s[7]⟩

/-- One round with round constant k and schedule word x; every right side reads the old values (R67). -/
def compressRound (v : Working) (k x : Word) : Working :=
  let t1 := v.h + bigSigma1 v.e + ch v.e v.f v.g + k + x
  let t2 := bigSigma0 v.a + maj v.a v.b v.c
  ⟨t1 + t2, v.a, v.b, v.c, v.d + t1, v.e, v.f, v.g⟩

/-- The working variables after the rounds 0 to r - 1 (R69). -/
def workingAfter (v : Working) (w : List Word) : Nat → Working
  | 0 => v
  | r + 1 => compressRound (workingAfter v w r) (roundConstant r) (w.getD r 0)

/-- The feed-forward: word-wise addition of the working variables to the state (R68). -/
def feedForward (s : HashState) (v : Working) : HashState :=
  #v[s[0] + v.a, s[1] + v.b, s[2] + v.c, s[3] + v.d, s[4] + v.e, s[5] + v.f, s[6] + v.g, s[7] + v.h]

/-- Compress (R57, R69). -/
def compress (s : HashState) (blk : Block) : HashState :=
  feedForward s (workingAfter (Working.load s) (schedule blk) 64)

/-! The 16-word circular schedule an implementation may use instead (R66). It is beside the model
proper: no command calls it, and a statement says that it cannot be told apart. -/

/-- The circular buffer as round r reads it: for r ≥ 16 the slot r mod 16 is computed anew first (R66). -/
def circularSlot (wc : Vector Word 16) (r : Nat) : Vector Word 16 :=
  if r < 16 then wc else
    wc.set (r % 16)
      (smallSigma1 (wc[(r - 2) % 16]'(Nat.mod_lt _ (by decide))) + wc[(r - 7) % 16]'(Nat.mod_lt _ (by decide))
        + smallSigma0 (wc[(r - 15) % 16]'(Nat.mod_lt _ (by decide))) + wc[r % 16]'(Nat.mod_lt _ (by decide)))
      (Nat.mod_lt _ (by decide))

/-- The circular buffer and working variables after the rounds 0 to r - 1 (R66). -/
def circularAfter (v : Working) (wc : Vector Word 16) : Nat → Vector Word 16 × Working
  | 0 => (wc, v)
  | r + 1 =>
    let old := circularAfter v wc r
    let wc' := circularSlot old.1 r
    (wc', compressRound old.2 (roundConstant r) (wc'[r % 16]'(Nat.mod_lt _ (by decide))))

/-- Compress with the circular schedule (R66). -/
def compressCircular (s : HashState) (blk : Block) : HashState :=
  feedForward s (circularAfter (Working.load s) (Vector.ofFn (blockWord blk)) 64).2

end Sys2Proof.Machine
end

