-- ==== Sys2Proof/Machine/Flags.lean ====
section
/-! DEFINITION. The engine has no flags and no condition codes; its one indication is the status byte
that opens every response (spec 10_state.md rule R28, 60_exceptions.md rule R96). -/

namespace Sys2Proof.Machine

/-- The four statuses (R96). -/
inductive Status where
  | ok
  | illegalCmd
  | notInit
  | finalized
deriving DecidableEq, Repr

/-- The status byte (R96). -/
def Status.code : Status → Byte
  | .ok => 0x00
  | .illegalCmd => 0x01
  | .notInit => 0x02
  | .finalized => 0x03

end Sys2Proof.Machine
end

