-- ==== Sys2Proof/Machine/State.lean ====
section
/-! DEFINITION. The state of one engine: its five Context registers (spec 10_state.md rule R17) and its
two byte streams (30_encoding.md rules R44 and R53), and the reasons a step can stop. -/

namespace Sys2Proof.Machine

/-- PHASE, the lifecycle register (R18). Its 2-bit code 3 is unreachable and has no constructor, as
R18 allows. -/
inductive Phase where
  /-- No INIT since hardware reset (code 0). -/
  | uninit
  /-- A message is in progress (code 1). -/
  | active
  /-- The digest has been emitted (code 2). -/
  | finalized
deriving DecidableEq, Repr

/-- One engine between two commands (R11). -/
structure State where
  /-- H[0..7], the running hash state (R24). -/
  h : HashState
  /-- BUF[0..63], the block buffer, in its byte view (R22). -/
  buf : Block
  /-- TOTAL_LEN, the count of message bytes since the last INIT (R20). -/
  totalLen : BitVec 64
  /-- DIGEST_LEN, the number of digest bytes FINAL emits (R19). -/
  digestLen : BitVec 6
  /-- PHASE (R18). -/
  phase : Phase
  /-- The command stream: the bytes the host delivers that are not yet taken, oldest first, up to the
  next hardware reset (R44). -/
  commands : List Byte
  /-- The hardware resets the host applies after those bytes, oldest first, each with the bytes
  delivered after it (R109, R119). -/
  laterCommands : List (List Byte)
  /-- The response stream since the last hardware reset, oldest byte first (R53, R30). -/
  responses : List Byte
  /-- The response streams that earlier hardware resets closed, oldest first (R120). -/
  earlierResponses : List (List Byte)
deriving DecidableEq, Repr

/-- Why the engine has no step. Both are the spec's `stuck`: the host broke the duty to deliver whole
commands (R113), and the engine waits for bytes that never come. No instruction raises either. -/
inductive Fault where
  /-- Raised by the step when 1 to 3 bytes of a header are left and nothing follows. Safe: the engine
  emits nothing and changes nothing, and no claim can be proved past it. -/
  | waitsForHeader
  /-- Raised by the step when an UPDATE header is left with fewer than LEN payload bytes and nothing
  follows. Safe, for the same reason. -/
  | waitsForPayload
deriving DecidableEq, Repr

/-- Why an instruction is refused. -/
inductive Refusal where
  /-- An instruction without a meaning; raised only by a refused arm of exec, and exec has none. Safe. -/
  | notModelled (mnemonic : String)
deriving DecidableEq, Repr

/-- The engine right after hardware reset, with nothing delivered (R30, R109). PHASE and
the empty response stream are the spec's; H, BUF, TOTAL_LEN and DIGEST_LEN hold the values log entry 1
names; `commands`, `laterCommands` and `earlierResponses` start empty by log entries 8, 5 and 6. -/
def State.reset : State where
  h := Vector.replicate 8 Config.resetHashWord
  buf := Vector.replicate 64 Config.resetBufByte
  totalLen := Config.resetTotalLen
  digestLen := Config.resetDigestLen
  phase := .uninit
  commands := []
  laterCommands := []
  responses := []
  earlierResponses := []

end Sys2Proof.Machine
end

