-- ==== Sys2Proof/Machine/Ops.lean ====
section
/-! DEFINITION. The named operations over the registers and the streams, which every meaning is built
from: register writes, the buffer, one compression into H, responses, the error exit, hardware reset. -/

namespace Sys2Proof.Machine

/-- Write H. -/
def State.setH (s : State) (x : HashState) : State := { s with h := x }
/-- Write BUF. -/
def State.setBuf (s : State) (x : Block) : State := { s with buf := x }
/-- Write TOTAL_LEN. -/
def State.setTotalLen (s : State) (x : BitVec 64) : State := { s with totalLen := x }
/-- Write DIGEST_LEN. -/
def State.setDigestLen (s : State) (x : BitVec 6) : State := { s with digestLen := x }
/-- Write PHASE. -/
def State.setPhase (s : State) (x : Phase) : State := { s with phase := x }
/-- Set what is left of the command stream. -/
def State.setCommands (s : State) (x : List Byte) : State := { s with commands := x }

/-- PHASE's 2-bit code (R18). -/
def Phase.code : Phase → BitVec 2
  | .uninit => 0
  | .active => 1
  | .finalized => 2

/-- The fill of the block buffer, TOTAL_LEN mod 64 (R21). -/
def State.fill (s : State) : Nat := s.totalLen.toNat % 64

/-- Append to the response stream (R10, R53). -/
def State.emit (s : State) (bs : List Byte) : State := { s with responses := s.responses ++ bs }

/-- What the host has observed: the response streams in order (R27, R120). -/
def State.observation (s : State) : List Byte := s.earlierResponses.flatten ++ s.responses

/-- `for j: BUF[start + j] <- bs[j]` (R77, R85). -/
def State.writeBuf (s : State) (start : Nat) (bs : List Byte) : State :=
  s.setBuf (overwrite s.buf start bs)

/-- `H <- Compress(H, blk)` (R77, R88, R90). -/
def State.compressBlock (s : State) (blk : Block) : State := s.setH (compress s.h blk)

/-- `TOTAL_LEN <- (TOTAL_LEN + n) mod 2^64` (R78). -/
def State.countBytes (s : State) (n : Nat) : State := s.setTotalLen (s.totalLen + BitVec.ofNat 64 n)

/-- The one error exit, `raise Error(code)`: the command answers one status byte and writes no
register (R10, R99). The engine takes no trap and has no handler, so there is no return (R104). -/
def raiseError (code : Status) (s : State) : Host.Outcome State Fault Refusal :=
  .next (s.emit [code.code])

/-- The phase checks of UPDATE and FINAL, which come before the command's first register write
(R76, R84, R98, R100, R103); `k` is the command's effect while a message is in progress. -/
def whenActive (k : State → State) (s : State) : Host.Outcome State Fault Refusal :=
  match s.phase with
  | .uninit => raiseError .notInit s
  | .finalized => raiseError .finalized s
  | .active => .next (k s)

/-- The answer to a reserved header, already taken from the stream (R50, R97, R103). -/
def answerReserved (s : State) : Host.Outcome State Fault Refusal := raiseError .illegalCmd s

/-- Hardware reset, after which the host delivers `next` and then what `later` holds (R109). It emits
nothing; the response stream starts empty again (R30) and the closed one is kept for the observation
(R120). A command that was only partly delivered is dropped (R110). -/
def hardwareReset (next : List Byte) (later : List (List Byte)) (s : State) : State :=
  { State.reset with
    commands := next
    laterCommands := later
    earlierResponses := s.earlierResponses ++ [s.responses] }

/-- No whole command is left before the next hardware reset. If the host applies one, it takes effect
and drops a partly delivered command (R109, R110). Otherwise the engine waits: with no byte left it
changes no state (R108), and in the middle of a command it hangs (R113). -/
def awaitHost (stuck : Fault) (s : State) : Host.Outcome State Fault Refusal :=
  match s.laterCommands, s.commands with
  | next :: later, _ => .next (hardwareReset next later s)
  | [], [] => .next s
  | [], _ :: _ => .fault stuck

end Sys2Proof.Machine
end

