-- ==== Sys2Proof/Machine/Final.lean ====
section
/-! DEFINITION. The padding and finalization FSM and the output formatter: the meaning of FINAL (spec
43_finalize.md rules R84 to R94). -/

namespace Sys2Proof.Machine

/-- Step 2: the marker byte at the first free byte of BUF (R86). -/
def padMark (s : State) : State := s.writeBuf s.fill [Config.markerByte]

/-- Step 3: the rest of the block is zero-filled (R87). -/
def padZero (s : State) : State := s.writeBuf (s.fill + 1) (List.replicate (63 - s.fill) 0)

/-- Step 4, taken when the length field does not fit: compress the block and start an all-zero one (R88). -/
def padSpill (s : State) : State := (s.compressBlock s.buf).writeBuf 0 (List.replicate 64 0)

/-- The message length in bits, modulo 2^64 (R89). -/
def bitLength (s : State) : BitVec 64 := s.totalLen * 8

/-- Step 5: the length field, big-endian, in BUF[56..63] (R89). -/
def padLength (s : State) : State := s.writeBuf 56 (be64Bytes (bitLength s))

/-- Step 6: the last compression (R90). -/
def padLast (s : State) : State := s.compressBlock s.buf

/-- Pad() (R85). -/
def pad (s : State) : State :=
  let filled := padZero (padMark s)
  let spilled := if Config.spillFill ≤ s.fill then padSpill filled else filled
  padLast (padLength spilled)

/-- The 32 bytes of the big-endian serialisation of H (R91). -/
def hashBytes (h : HashState) : List Byte := h.toList.flatMap be32Bytes

/-- Digest(): the first DIGEST_LEN bytes of the serialisation (R91). -/
def digest (s : State) : List Byte := (hashBytes s.h).take s.digestLen.toNat

/-- F_EMIT: the phase moves and the status byte and the digest are emitted (R84, R85, R92). -/
def finish (s : State) : State := (s.setPhase .finalized).emit (Status.ok.code :: digest s)

/-- FINAL (R84). -/
def execFinal (s : State) : Host.Outcome State Fault Refusal :=
  whenActive (fun s => finish (pad s)) s

/-! The hardware FSM inside one FINAL, state by state (the table of R85). FINAL is atomic (R11), so no
state of it stands between commands; a statement says that it computes `execFinal`. -/

/-- The FSM's states (R85). -/
inductive PadState where
  | fMark
  | fZero
  | fSpill
  | fLen
  | fLast
  | fEmit
  | done
deriving DecidableEq, Repr

/-- One transition of the FSM (the rows of R85's table). -/
def fsmStep : PadState × State → PadState × State
  | (.fMark, s) => (.fZero, padMark s)
  | (.fZero, s) => (if Config.spillFill ≤ s.fill then .fSpill else .fLen, padZero s)
  | (.fSpill, s) => (.fLen, padSpill s)
  | (.fLen, s) => (.fLast, padLength s)
  | (.fLast, s) => (.fEmit, padLast s)
  | (.fEmit, s) => (.done, finish s)
  | (.done, s) => (.done, s)

end Sys2Proof.Machine
end

