-- ==== Sys2Proof/Machine/Operands.lean ====
section
/-! DEFINITION. The operand forms: INIT's VARIANT and what it selects (spec 30_encoding.md rule R47,
41_init.md rule R74). UPDATE's operand is its payload (R48) and FINAL has none (R49). -/

namespace Sys2Proof.Machine

/-- The hash variant of a message (R2). -/
inductive Variant where
  | sha224
  | sha256
deriving DecidableEq, Repr

/-- VARIANT, the 24-bit argument zero-extended to 32 bits (R47). -/
def variantOperand (arg : BitVec 24) : Word := arg.setWidth 32

/-- Variant selection: 224 selects SHA-224 and every other value SHA-256 (R74). -/
def selectVariant (v : Word) : Variant := if v = 224 then .sha224 else .sha256

/-- The initial hash value of a variant (R72, R73). -/
def Variant.iv : Variant → HashState
  | .sha224 => iv224
  | .sha256 => iv256

/-- DIGEST_LEN of a variant (R19, R73). -/
def Variant.digestLen : Variant → BitVec 6
  | .sha224 => 28
  | .sha256 => 32

end Sys2Proof.Machine
end

