-- ==== Sys2Proof/Machine/Init.lean ====
section
/-! DEFINITION. The initializer: the meaning of INIT (spec 41_init.md rules R71 to R75). -/

namespace Sys2Proof.Machine

/-- The registers INIT writes for a variant; BUF is not written (R73, log entry 2). -/
def startMessage (v : Variant) (s : State) : State :=
  (((s.setH v.iv).setDigestLen v.digestLen).setTotalLen 0).setPhase .active

/-- INIT, accepted in every phase (R73). -/
def execInit (variant : BitVec 24) (s : State) : Host.Outcome State Fault Refusal :=
  .next ((startMessage (selectVariant (variantOperand variant)) s).emit [Status.ok.code])

end Sys2Proof.Machine
end

