-- ==== Sys2Proof/Machine/Update.lean ====
section
/-! DEFINITION. The updater and incremental block buffer: the meaning of UPDATE (spec 42_update.md
rules R76 to R83). -/

namespace Sys2Proof.Machine

/-- Step 4 of R77, the direct-block path: `k` successive 64-byte slices of the payload are compressed
without passing through BUF (R79). -/
def compressSlices : Nat → List Byte → State → State
  | 0, _, s => s
  | k + 1, data, s => compressSlices k (data.drop 64) (s.compressBlock (blockOfBytes data))

/-- Steps 4 and 5 of R77, with the buffer empty: the whole slices, then the leftover into BUF from
index 0 (R79, R80). -/
def absorbAligned (data : List Byte) (s : State) : State :=
  (compressSlices (data.length / 64) data s).writeBuf 0 (data.drop (64 * (data.length / 64)))

/-- The five-step absorb algorithm. The fill is read before the count is raised (R77, 90_conflicts.md C5). -/
def absorb (data : List Byte) (s : State) : State :=
  let fill := s.fill
  let counted := s.countBytes data.length
  if 0 < fill then
    let take := min (64 - fill) data.length
    let topped := counted.writeBuf fill (data.take take)
    if fill + take < 64 then topped
    else absorbAligned (data.drop take) (topped.compressBlock topped.buf)
  else absorbAligned data counted

/-- The byte-at-a-time form of R81. No command calls it; a statement says that it agrees with `absorb`. -/
def absorbByte (x : Byte) (s : State) : State :=
  let filled := s.writeBuf s.fill [x]
  let counted := filled.countBytes 1
  if s.fill = 63 then counted.compressBlock counted.buf else counted

/-- UPDATE (R76). -/
def execUpdate (data : List Byte) (s : State) : Host.Outcome State Fault Refusal :=
  whenActive (fun s => (absorb data s).emit [Status.ok.code]) s

end Sys2Proof.Machine
end

