-- ==== Sys2Proof/Machine/Step.lean ====
section
/-! DEFINITION. One step: the engine takes one whole command from the command stream, applies its whole
effect and emits its whole response (spec 00_scope.md rule R11, 20_memory.md rules R38 and R41). -/

namespace Sys2Proof.Machine

/-- One step (R11). A whole command is taken from the stream and run (R44); a reserved header is taken
and answered (R50, R97); with no whole command left the engine awaits the host (R108, R109, R110, R113). -/
def step (s : State) : Host.Outcome State Fault Refusal :=
  match decode s.commands with
  | .command i rest => exec i (s.setCommands rest)
  | .reserved _ rest => answerReserved (s.setCommands rest)
  | .shortHeader => awaitHost .waitsForHeader s
  | .shortPayload _ => awaitHost .waitsForPayload s

/-- The state in which the host has put the table row's command, its bytes only, in front of the
command stream, so that the next step takes and runs it (log entry 8). -/
def State.withFetchWord (s : State) (nbits w : Nat) : State :=
  s.setCommands (tableBytes nbits w ++ s.commands)

end Sys2Proof.Machine
end

