-- ==== Sys2Proof/Machine/Assembler.lean ====
section
/-! DEFINITION. The host's textual command syntax and its pseudo-commands (spec 30_encoding.md rules R55
and R56). The engine sees only the bytes; this is the writer's side of the command stream. A line is a
list of characters. Spaces may stand before, between and after the parts of a line (log entry 10). -/

namespace Sys2Proof.Assembler

open Sys2Proof.Machine

/-- One line of the syntax, its bytes already evaluated (R55, R56). -/
inductive Line where
  /-- An empty line, or a comment alone. -/
  | blank
  /-- `init <n>`. -/
  | init (n : Nat)
  /-- `update <bytes>`, of any length. -/
  | update (bytes : List Byte)
  /-- `final`. -/
  | final
  /-- `.word <h>`: a raw header with no payload. -/
  | word (h : Nat)
  /-- `hash256 <bytes>`. -/
  | hash256 (bytes : List Byte)
  /-- `hash224 <bytes>`. -/
  | hash224 (bytes : List Byte)
deriving DecidableEq, Repr

/-- A long update in pieces of at most MAX_UPDATE_LEN bytes, at most `fuel` of them before the last (R56). -/
def splitBytes : Nat → List Byte → List (List Byte)
  | 0, bytes => [bytes]
  | fuel + 1, bytes =>
    if bytes.length ≤ Config.maxUpdateLen then [bytes]
    else bytes.take Config.maxUpdateLen :: splitBytes fuel (bytes.drop Config.maxUpdateLen)

/-- `update <bytes>` as UPDATE commands (R13, R56). -/
def updateCommands (bytes : List Byte) : List Instr :=
  (splitBytes (bytes.length / Config.maxUpdateLen) bytes).map .update

/-- `hash256` and `hash224` as commands (R56). -/
def hashCommands (variant : BitVec 24) (bytes : List Byte) : List Instr :=
  .init variant :: (updateCommands bytes ++ [.final])

/-- The bytes of a command sequence: no gaps and no padding (R44). -/
def encodeAll (is : List Instr) : List Byte := is.flatMap encode

/-- The bytes a line assembles to; none where the number does not fit its field (R55). -/
def assembleLine : Line → Option (List Byte)
  | .blank => some []
  | .init n => if n ≤ 16777215 then some (encode (.init (BitVec.ofNat 24 n))) else none
  | .update bytes => some (encodeAll (updateCommands bytes))
  | .final => some (encode .final)
  | .word h => if h < 2 ^ 32 then some (be32Bytes (BitVec.ofNat 32 h)) else none
  | .hash256 bytes => some (encodeAll (hashCommands 256 bytes))
  | .hash224 bytes => some (encodeAll (hashCommands 224 bytes))

/-- The value of a hex digit. -/
def hexDigit (c : Char) : Option Nat :=
  if '0' ≤ c ∧ c ≤ '9' then some (c.toNat - 48)
  else if 'a' ≤ c ∧ c ≤ 'f' then some (c.toNat - 87)
  else if 'A' ≤ c ∧ c ≤ 'F' then some (c.toNat - 55)
  else none

/-- The value of a decimal digit. -/
def decDigit (c : Char) : Option Nat :=
  if '0' ≤ c ∧ c ≤ '9' then some (c.toNat - 48) else none

/-- Digits of a base, most significant first, as far as they go. -/
def readDigits (digit : Char → Option Nat) (base : Nat) (acc : Nat) : List Char → Nat × List Char
  | [] => (acc, [])
  | c :: cs =>
    match digit c with
    | some d => readDigits digit base (acc * base + d) cs
    | none => (acc, c :: cs)

/-- A number in decimal or, after `0x`, in hex; at least one digit. R55 gives the two forms for `init`'s n;
that `.word` and `rep(b, n)` take them too is DESIGN CHOICE (log entry 10). -/
def readNumber : List Char → Option (Nat × List Char)
  | '0' :: 'x' :: c :: cs => (hexDigit c).map fun d => readDigits hexDigit 16 d cs
  | c :: cs => (decDigit c).map fun d => readDigits decDigit 10 d cs
  | [] => none

/-- The inside of a string: ASCII characters, and the escapes for a byte, a backslash and a quote (R55). -/
def readString : List Char → Option (List Byte × List Char)
  | [] => none
  | '"' :: cs => some ([], cs)
  | '\\' :: 'x' :: c1 :: c0 :: cs =>
    match hexDigit c1, hexDigit c0, readString cs with
    | some d1, some d0, some (bs, rest) => some (BitVec.ofNat 8 (16 * d1 + d0) :: bs, rest)
    | _, _, _ => none
  | '\\' :: '\\' :: cs => (readString cs).map fun p => ((0x5c : Byte) :: p.1, p.2)
  | '\\' :: '"' :: cs => (readString cs).map fun p => ((0x22 : Byte) :: p.1, p.2)
  | c :: cs =>
    if c ≠ '\\' ∧ c.toNat < 128 then (readString cs).map fun p => (BitVec.ofNat 8 c.toNat :: p.1, p.2)
    else none

/-- The inside of a hex string: two digits per byte (R55). -/
def readHexString : List Char → Option (List Byte × List Char)
  | '\'' :: cs => some ([], cs)
  | c1 :: c0 :: cs =>
    match hexDigit c1, hexDigit c0, readHexString cs with
    | some d1, some d0, some (bs, rest) => some (BitVec.ofNat 8 (16 * d1 + d0) :: bs, rest)
    | _, _, _ => none
  | _ => none

/-- Drop leading spaces. -/
def skipSpaces (cs : List Char) : List Char := cs.dropWhile (· = ' ')

/-- The rest of `rep(b, n)` after its opening bracket (R55; its numbers' form is log entry 10). -/
def readRep (cs : List Char) : Option (List Byte × List Char) :=
  match readNumber (skipSpaces cs) with
  | some (b, cs) =>
    match skipSpaces cs with
    | ',' :: cs =>
      match readNumber (skipSpaces cs) with
      | some (n, cs) =>
        match skipSpaces cs with
        | ')' :: cs => if b < 256 then some (List.replicate n (BitVec.ofNat 8 b), cs) else none
        | _ => none
      | none => none
    | _ => none
  | none => none

/-- One item of a byte expression: a string, a hex string or a repetition (R55). -/
def readItem : List Char → Option (List Byte × List Char)
  | '"' :: cs => readString cs
  | 'x' :: '\'' :: cs => readHexString cs
  | 'r' :: 'e' :: 'p' :: '(' :: cs => readRep cs
  | _ => none

/-- A byte expression, items joined by `++`; `fuel` bounds their number (R55). -/
def readBytes : Nat → List Char → Option (List Byte × List Char)
  | 0, _ => none
  | fuel + 1, cs =>
    match readItem (skipSpaces cs) with
    | some (bs, cs) =>
      match skipSpaces cs with
      | '+' :: '+' :: cs => (readBytes fuel cs).map fun p => (bs ++ p.1, p.2)
      | _ => some (bs, cs)
    | none => none

/-- The value read, if only spaces and a comment follow it (R55). -/
def atLineEnd {α : Type} : Option (α × List Char) → Option α
  | none => none
  | some (a, cs) =>
    match skipSpaces cs with
    | [] => some a
    | ';' :: _ => some a
    | _ :: _ => none

/-- One line of text (R55, R56; the form of a `.word` number is log entry 10). -/
def parseLine (cs : List Char) : Option Line :=
  match skipSpaces cs with
  | [] => some .blank
  | ';' :: _ => some .blank
  | 'i' :: 'n' :: 'i' :: 't' :: ' ' :: cs => (atLineEnd (readNumber (skipSpaces cs))).map .init
  | 'u' :: 'p' :: 'd' :: 'a' :: 't' :: 'e' :: ' ' :: cs => (atLineEnd (readBytes cs.length cs)).map .update
  | 'f' :: 'i' :: 'n' :: 'a' :: 'l' :: cs => atLineEnd (some (.final, cs))
  | '.' :: 'w' :: 'o' :: 'r' :: 'd' :: ' ' :: cs => (atLineEnd (readNumber (skipSpaces cs))).map .word
  | 'h' :: 'a' :: 's' :: 'h' :: '2' :: '5' :: '6' :: ' ' :: cs =>
    (atLineEnd (readBytes cs.length cs)).map .hash256
  | 'h' :: 'a' :: 's' :: 'h' :: '2' :: '2' :: '4' :: ' ' :: cs =>
    (atLineEnd (readBytes cs.length cs)).map .hash224
  | _ => none

/-- A program text, one command a line, as the bytes of the command stream (R55, R44). -/
def assemble : List (List Char) → Option (List Byte)
  | [] => some []
  | l :: ls =>
    match (parseLine l).bind assembleLine, assemble ls with
    | some bs, some rest => some (bs ++ rest)
    | _, _ => none

end Sys2Proof.Assembler
end

