-- ==== Sys2Proof/Machine/Platform.lean ====
section
/-! DEFINITION. A platform of n independent engines (spec 60_exceptions.md rule R106; N_ENGINES is an
open parameter, so it is the argument n). -/

namespace Sys2Proof.Machine

/-- n engine instances, each with its own Context and its own two streams; nothing is shared (R106). -/
abbrev Platform (n : Nat) := Vector State n

/-- Every engine right after hardware reset (R106, R109). -/
def Platform.reset (n : Nat) : Platform n := Vector.replicate n State.reset

/-- Engine k takes one step; which engine moves next is not fixed, so k is an argument (R106). -/
def Platform.stepEngine {n : Nat} (p : Platform n) (k : Fin n) :
    Host.Outcome (Platform n) Fault Refusal :=
  match step p[k] with
  | .next s => .next (p.set k s)
  | .fault r => .fault r
  | .refused r => .refused r

end Sys2Proof.Machine
end

