-- ==== Sys2Proof/Safety.lean ====
section
/-! DEFINITION. What the claims about the engine are said in: the message a run absorbs, its blocks and
padding, the digest the rules give it, the invariant of the engine, and what of a state is specified. -/

namespace Sys2Proof.Machine

/-! ## Messages (spec 20_memory.md rule R33, 42_update.md rule R82, 43_finalize.md rule R94) -/

/-- Block k of a message, its bytes 64k to 64k+63 (R36, R82). -/
def messageBlock (m : List Byte) (k : Nat) : Block := Vector.ofFn fun i => m.getD (64 * k + i.val) 0

/-- The whole blocks of a message, in order (R82). -/
def messageBlocks (m : List Byte) : List Block := (List.range (m.length / 64)).map (messageBlock m)

/-- Compress folded over blocks, from a state (R29, R82). -/
def hashBlocks (h : HashState) (blks : List Block) : HashState := blks.foldl compress h

/-- k = (55 - n) mod 64, the number of zero bytes of padding for a message of n bytes (R94). -/
def padZeros (n : Nat) : Nat := (119 - n % 64) % 64

/-- The padded message P (R94). -/
def padded (m : List Byte) : List Byte :=
  m ++ Config.markerByte :: (List.replicate (padZeros m.length) 0 ++ be64Bytes (BitVec.ofNat 64 (8 * m.length)))

/-- The digest of a message (R91, R94). -/
def shaDigest (v : Variant) (m : List Byte) : List Byte :=
  (hashBytes (hashBlocks v.iv (messageBlocks (padded m)))).take v.digestLen.toNat

/-! ## The invariant (spec 10_state.md rule R29) -/

/-- The Context holds message m of variant v, absorbed and not finalized (R29 items 1 to 4, R82). -/
structure Absorbed (v : Variant) (m : List Byte) (s : State) : Prop where
  variant : s.digestLen = v.digestLen
  count : s.totalLen = BitVec.ofNat 64 m.length
  hash : s.h = hashBlocks v.iv (messageBlocks m)
  leftover : ∀ (j : Nat) (_ : j < 64), j < m.length % 64 → s.buf[j] = m.getD (64 * (m.length / 64) + j) 0

/-- The Context holds the final hash value of message m of variant v (R92). -/
structure Finished (v : Variant) (m : List Byte) (s : State) : Prop where
  variant : s.digestLen = v.digestLen
  count : s.totalLen = BitVec.ofNat 64 m.length
  hash : s.h = hashBlocks v.iv (messageBlocks (padded m))

/-- The registers are those of some message, in every phase in which they hold a value (R29, R92). -/
def State.Inv (s : State) : Prop :=
  match s.phase with
  | .uninit => True
  | .active => ∃ v m, Absorbed v m s
  | .finalized => ∃ v m, Finished v m s

/-! ## What is specified of a state (spec 10_state.md rules R23 and R30, 43_finalize.md rule R92) -/

/-- Two states that agree on all the spec gives a value to: PHASE and the streams always, and while a
message is in progress H, TOTAL_LEN, DIGEST_LEN and the bytes of BUF below the fill. -/
structure SameSpecified (s t : State) : Prop where
  phase : s.phase = t.phase
  commands : s.commands = t.commands
  laterCommands : s.laterCommands = t.laterCommands
  responses : s.responses = t.responses
  earlierResponses : s.earlierResponses = t.earlierResponses
  h : s.phase = .active → s.h = t.h
  totalLen : s.phase = .active → s.totalLen = t.totalLen
  digestLen : s.phase = .active → s.digestLen = t.digestLen
  buf : s.phase = .active → ∀ (j : Nat) (_ : j < 64), j < s.fill → s.buf[j] = t.buf[j]

/-! ## Runs and Compress calls (spec 42_update.md rule R81, 43_finalize.md rule R93) -/

/-- Commands run one after another (R41); it stops at the first that gives no next state. -/
def runCommands : List Instr → State → Host.Outcome State Fault Refusal
  | [], s => .next s
  | i :: is, s =>
    match exec i s with
    | .next t => runCommands is t
    | .fault r => .fault r
    | .refused r => .refused r

/-- The blocks that Absorb passes to Compress, in order: the buffer when the payload fills it, then the
whole slices of what is left (steps 3 and 4 of R77). -/
def absorbCalls (data : List Byte) (s : State) : List Block :=
  if 0 < s.fill then
    if s.fill + data.length < 64 then []
    else overwrite s.buf s.fill (data.take (64 - s.fill)) :: messageBlocks (data.drop (64 - s.fill))
  else messageBlocks data

/-- The blocks that Pad passes to Compress, in order (steps 4 and 6 of R85). -/
def padCalls (s : State) : List Block :=
  let filled := padZero (padMark s)
  if Config.spillFill ≤ s.fill then [filled.buf, (padLength (padSpill filled)).buf]
  else [(padLength filled).buf]

/-- The blocks a command passes to Compress, in order; a rejected command passes none (R70, R99). -/
def compressCalls (i : Instr) (s : State) : List Block :=
  match i, s.phase with
  | .update data, .active => absorbCalls data s
  | .final, .active => padCalls s
  | _, _ => []

end Sys2Proof.Machine
end

