-- ==== Sys2Proof/Certificates/Slice0/Obligations.lean ====
section
/-! DEFINITION. The statements about the engine. Each docstring names the rule it formalises, or the
sections and the log entry it rests on. -/

open Sys2Proof Sys2Proof.Machine Sys2Proof.Assembler

/-- The single padded block of the message "abc", written out (95_test_vectors.md section 3). -/
def Sys2Proof.Machine.abcBlock : Block := #v[
  0x61, 0x62, 0x63, 0x80, 0, 0, 0, 0, 0, 0, 0, 0, 0, 0, 0, 0, 0, 0, 0, 0, 0, 0, 0, 0, 0, 0, 0, 0, 0, 0, 0, 0,
  0, 0, 0, 0, 0, 0, 0, 0, 0, 0, 0, 0, 0, 0, 0, 0, 0, 0, 0, 0, 0, 0, 0, 0, 0, 0, 0, 0, 0, 0, 0, 0x18]

/-! ## Encoding -/

/-- Decode and encode agree: the bytes of a well-formed command, followed by anything, decode to that
command and leave what follows (30_encoding.md rules R44 to R52). -/
def Obligations.DecodeEncodeRoundTrip : Prop :=
  ∀ (i : Instr) (rest : List Byte), i.wf = true → decode (encode i ++ rest) = .command i rest

/-- The other direction: what decodes to a command is exactly that command's bytes, so every word has one
meaning (30_encoding.md rules R44 to R52). -/
def Obligations.DecodedBytesAreTheEncoding : Prop :=
  ∀ (bs : List Byte) (i : Instr) (rest : List Byte),
    decode bs = .command i rest → i.wf = true ∧ bs = encode i ++ rest

/-- R51, in the match and mask form of R46: which headers are INIT, UPDATE and FINAL, with their argument
fields, and that every other header is illegal. -/
def Obligations.HeaderDecodesByMatchAndMask : Prop :=
  ∀ hdr : Word,
    (hdr &&& 0xFF000000 = 0x01000000 → decodeHeader hdr = .init (hdr.setWidth 24)) ∧
    (hdr &&& 0xFF000000 = 0x02000000 → decodeHeader hdr = .update (hdr.setWidth 24)) ∧
    (hdr &&& 0xFFFFFFFF = 0x03000000 → decodeHeader hdr = .final) ∧
    (hdr &&& 0xFF000000 ≠ 0x01000000 → hdr &&& 0xFF000000 ≠ 0x02000000 → hdr &&& 0xFFFFFFFF ≠ 0x03000000 →
      ∃ why, decodeHeader hdr = .illegal why)

/-- Words written out from the spec's encoding decode to the commands they stand for (95_test_vectors.md
section 7). -/
def Obligations.SpecWordsDecode : Prop :=
  decode [0x01, 0x00, 0x00, 0xE0] = .command (.init 224) [] ∧
  decode [0x01, 0x00, 0x01, 0x00] = .command (.init 256) [] ∧
  decode [0x02, 0x00, 0x00, 0x03, 0x61, 0x62, 0x63, 0x03] = .command (.update [0x61, 0x62, 0x63]) [0x03] ∧
  decode [0x02, 0x00, 0x00, 0x00] = .command (.update []) [] ∧
  decode [0x03, 0x00, 0x00, 0x00] = .command .final [] ∧
  decode [0x03, 0x80, 0x00, 0x00] = .reserved (.finalArgument 0x800000) [] ∧
  decode [0x81, 0x00, 0x01, 0x00] = .reserved (.opcode 0x81) []

/-- A whole command at the front of the stream is the same command whatever bytes arrive after it
(30_encoding.md rules R44 and R52). -/
def Obligations.LaterBytesDoNotChangeTheFirstCommand : Prop :=
  ∀ (bs more : List Byte),
    (∀ i rest, decode bs = .command i rest → decode (bs ++ more) = .command i (rest ++ more)) ∧
    (∀ why rest, decode bs = .reserved why rest → decode (bs ++ more) = .reserved why (rest ++ more))

/-- The conversions of R9 are big-endian and lose nothing (00_scope.md rule R9, 20_memory.md rule R34). -/
def Obligations.ConversionsAreBigEndian : Prop :=
  (∀ b0 b1 b2 b3 : Byte,
    (be32 b0 b1 b2 b3).toNat = b0.toNat * 2 ^ 24 + b1.toNat * 2 ^ 16 + b2.toNat * 2 ^ 8 + b3.toNat ∧
    be32Bytes (be32 b0 b1 b2 b3) = [b0, b1, b2, b3]) ∧
  (∀ (w : Word) (k : Nat) (_ : k < 4), ((be32Bytes w).getD k 0).toNat = w.toNat / 2 ^ (8 * (3 - k)) % 256) ∧
  (∀ (v : BitVec 64) (k : Nat) (_ : k < 8), ((be64Bytes v).getD k 0).toNat = v.toNat / 2 ^ (8 * (7 - k)) % 256)

/-! ## Compression -/

/-- R58 and R59: the formulas, what each result bit is, and the rules' examples. -/
def Obligations.ChooseAndMajorityBitByBit : Prop :=
  (∀ (x y z : Word), ch x y z = (x &&& y) ^^^ (~~~x &&& z) ∧ maj x y z = (x &&& y) ^^^ (x &&& z) ^^^ (y &&& z)) ∧
  (∀ (x y z : Word) (i : Nat), i < 32 →
    (ch x y z).getLsbD i = (if x.getLsbD i then y.getLsbD i else z.getLsbD i) ∧
    ((maj x y z).getLsbD i = true ↔
      2 ≤ (x.getLsbD i).toNat + (y.getLsbD i).toNat + (z.getLsbD i).toNat)) ∧
  ch 0xff00ff00 0x12345678 0x9abcdef0 = 0x12bc56f0 ∧ maj 0xff00ff00 0x12345678 0x9abcdef0 = 0x9a34de70

/-- R60 to R63: bit i of a rotated word is the bit n places higher, cyclically, and the third term of the
lower sigmas is a logical shift; with the rules' examples. -/
def Obligations.SigmaBitsAreRotatedAndShifted : Prop :=
  (∀ (x : Word) (i : Nat), i < 32 →
    (bigSigma0 x).getLsbD i = (x.getLsbD ((i + 2) % 32) ^^ x.getLsbD ((i + 13) % 32) ^^ x.getLsbD ((i + 22) % 32)) ∧
    (bigSigma1 x).getLsbD i = (x.getLsbD ((i + 6) % 32) ^^ x.getLsbD ((i + 11) % 32) ^^ x.getLsbD ((i + 25) % 32)) ∧
    (smallSigma0 x).getLsbD i =
      (x.getLsbD ((i + 7) % 32) ^^ x.getLsbD ((i + 18) % 32) ^^ (decide (i + 3 < 32) && x.getLsbD (i + 3))) ∧
    (smallSigma1 x).getLsbD i =
      (x.getLsbD ((i + 17) % 32) ^^ x.getLsbD ((i + 19) % 32) ^^ (decide (i + 10 < 32) && x.getLsbD (i + 10)))) ∧
  bigSigma0 0x12345678 = 0x66146474 ∧ bigSigma1 0x12345678 = 0x3561abda ∧
  smallSigma0 0x12345678 = 0xe7fce6ee ∧ smallSigma0 0xFFFFFFFF = 0x1fffffff ∧
  smallSigma1 0x12345678 = 0xa1f78649 ∧ smallSigma1 0xFFFFFFFF = 0x003fffff

/-- R64: round constant r is icbrt(p * 2^96) mod 2^32 for the r-th prime p, counting from 0; c is the
largest integer whose cube is at most p * 2^96. -/
def Obligations.RoundConstantsAreCubeRootDigits : Prop :=
  ∀ r : Nat, r < 64 → ∃ p c : Nat, Nat.Prime p ∧ Nat.count Nat.Prime p = r ∧
    c ^ 3 ≤ p * 2 ^ 96 ∧ p * 2 ^ 96 < (c + 1) ^ 3 ∧ (roundConstant r).toNat = c % 2 ^ 32

/-- The initial hash values are the square-root digits that 41_init.md R72 gives, a passage the spec takes
from general knowledge: isqrt(p * 2^64) mod 2^32 for the first 8 primes, isqrt(p * 2^128) mod 2^32 for
the next 8. -/
def Obligations.InitialValuesAreSquareRootDigits : Prop :=
  ∀ i : Fin 8,
    (∃ p c : Nat, Nat.Prime p ∧ Nat.count Nat.Prime p = i.val ∧
      c ^ 2 ≤ p * 2 ^ 64 ∧ p * 2 ^ 64 < (c + 1) ^ 2 ∧ iv256[i].toNat = c % 2 ^ 32) ∧
    (∃ p c : Nat, Nat.Prime p ∧ Nat.count Nat.Prime p = i.val + 8 ∧
      c ^ 2 ≤ p * 2 ^ 128 ∧ p * 2 ^ 128 < (c + 1) ^ 2 ∧ iv224[i].toNat = c % 2 ^ 32)

/-- R65: the message schedule, with the rule's example, the "abc" block. -/
def Obligations.ScheduleFollowsTheRecurrence : Prop :=
  (∀ blk : Block, (schedule blk).length = 64 ∧
    (∀ (t : Nat) (_ : t < 16), (schedule blk).getD t 0 =
      be32 blk[4 * t] blk[4 * t + 1] blk[4 * t + 2] blk[4 * t + 3]) ∧
    (∀ n : Nat, 16 ≤ n → n < 64 → (schedule blk).getD n 0 =
      smallSigma1 ((schedule blk).getD (n - 2) 0) + (schedule blk).getD (n - 7) 0
        + smallSigma0 ((schedule blk).getD (n - 15) 0) + (schedule blk).getD (n - 16) 0)) ∧
  (schedule abcBlock).getD 16 0 = 0x61626380 ∧ (schedule abcBlock).getD 17 0 = 0x000f0000

/-- R67 and R68: whatever words W obey the schedule of R65 and whatever working variables v obey the rounds,
Compress is the state plus the variables after round 63; with R67's example, round 0 of the "abc" block. -/
def Obligations.CompressIsSixtyFourRoundsAndFeedForward : Prop :=
  (∀ (s : HashState) (blk : Block) (w : Nat → Word) (v : Nat → Working),
    (∀ (t : Nat) (_ : t < 16), w t = be32 blk[4 * t] blk[4 * t + 1] blk[4 * t + 2] blk[4 * t + 3]) →
    (∀ n : Nat, 16 ≤ n → n < 64 →
      w n = smallSigma1 (w (n - 2)) + w (n - 7) + smallSigma0 (w (n - 15)) + w (n - 16)) →
    v 0 = ⟨s[0], s[1], s[2], s[3], s[4], s[5], s[6], s[7]⟩ →
    (∀ (r : Nat) (_ : r < 64), ∀ t1 t2 : Word,
      t1 = (v r).h + bigSigma1 (v r).e + ch (v r).e (v r).f (v r).g + kRom[r] + w r →
      t2 = bigSigma0 (v r).a + maj (v r).a (v r).b (v r).c →
      v (r + 1) = ⟨t1 + t2, (v r).a, (v r).b, (v r).c, (v r).d + t1, (v r).e, (v r).f, (v r).g⟩) →
    compress s blk = #v[s[0] + (v 64).a, s[1] + (v 64).b, s[2] + (v 64).c, s[3] + (v 64).d,
      s[4] + (v 64).e, s[5] + (v 64).f, s[6] + (v 64).g, s[7] + (v 64).h]) ∧
  workingAfter (Working.load iv256) (schedule abcBlock) 1 =
    ⟨0x5d6aebcd, iv256[0], iv256[1], iv256[2], 0xfa2a4622, iv256[4], iv256[5], iv256[6]⟩

/-- The 16-word circular schedule feeds every round the same word and gives the same Compress
(40_compression.md section 4, the spec's own inference at R66). -/
def Obligations.CircularScheduleCannotBeToldApart : Prop :=
  ∀ (s : HashState) (blk : Block),
    (∀ r : Nat, r < 64 → (circularAfter (Working.load s) (Vector.ofFn (blockWord blk)) (r + 1)).1[r % 16]'(Nat.mod_lt _ (by decide))
      = (schedule blk).getD r 0) ∧
    compressCircular s blk = compress s blk

/-- Compress of the "abc" block from IV256 and of the zero block from the zero state
(40_compression.md section 6, 95_test_vectors.md section 4). -/
def Obligations.CompressGivesThePublishedWords : Prop :=
  compress iv256 abcBlock =
    #v[0xba7816bf, 0x8f01cfea, 0x414140de, 0x5dae2223, 0xb00361a3, 0x96177a9c, 0xb410ff61, 0xf20015ad] ∧
  compress (Vector.replicate 8 0) (Vector.replicate 64 0) =
    #v[0x7ca51614, 0x425c3ba8, 0xce54dd2f, 0xc2020ae7, 0xb6e574d1, 0x98136d0f, 0xae7e26cc, 0xbf0be7a6]

/-! ## INIT -/

/-- R71, R74 and R101: INIT is answered in every state, selects SHA-224 for VARIANT = 224 and SHA-256 for
every other value, loads that variant's IV and digest length, and empties the buffer. -/
def Obligations.InitStartsAMessage : Prop :=
  ∀ (variant : BitVec 24) (s : State), ∃ t, exec (.init variant) s = .next t ∧
    (variant = 224 → t.h = iv224 ∧ t.digestLen = 28) ∧
    (variant ≠ 224 → t.h = iv256 ∧ t.digestLen = 32) ∧
    t.totalLen = 0 ∧ t.fill = 0 ∧ t.phase = .active ∧ t.responses = s.responses ++ [0x00]

/-- INIT's frame. That BUF keeps its bytes is this model's choice where the spec leaves them unspecified
(log entry 2; 41_init.md section 3, decision D17). -/
def Obligations.InitChangesNothingElse : Prop :=
  ∀ (variant : BitVec 24) (s t : State), exec (.init variant) s = .next t →
    t.buf = s.buf ∧ t.commands = s.commands ∧ t.laterCommands = s.laterCommands ∧
    t.earlierResponses = s.earlierResponses

/-- Two INIT commands with the same argument leave the same Context as one; only the second status byte is
added (20_memory.md section 4, the spec's own inference at R39). -/
def Obligations.SecondInitOnlyAnswers : Prop :=
  ∀ (variant : BitVec 24) (s t : State), exec (.init variant) s = .next t →
    exec (.init variant) t = .next { t with responses := t.responses ++ [0x00] }

/-- Reset isolation: after INIT, what the engine answers to any commands does not depend on the state
before it, so nothing of an earlier computation is left (41_init.md section 4). -/
def Obligations.InitLeavesNoResidue : Prop :=
  ∀ (variant : BitVec 24) (is : List Instr) (s t : State), ∃ s' t' r,
    runCommands (.init variant :: is) s = .next s' ∧ runCommands (.init variant :: is) t = .next t' ∧
    s'.responses = s.responses ++ r ∧ t'.responses = t.responses ++ r

/-! ## UPDATE -/

/-- UPDATE while a message is in progress, in terms of the valid bytes of BUF followed by the payload: its
whole blocks are compressed in order and its leftover is in BUF below the fill (42_update.md sections 2
and 3, rules R77 to R80). -/
def Obligations.UpdateCompressesBlocksAndKeepsLeftover : Prop :=
  ∀ (data : List Byte) (s : State), s.phase = .active → ∃ t, exec (.update data) s = .next t ∧
    t.h = hashBlocks s.h (messageBlocks (s.buf.toList.take s.fill ++ data)) ∧
    t.fill = (s.fill + data.length) % 64 ∧
    ∀ (j : Nat) (_ : j < 64), j < t.fill →
      t.buf[j] = (s.buf.toList.take s.fill ++ data).getD (64 * ((s.fill + data.length) / 64) + j) 0

/-- R78: the byte counter adds the payload length modulo 2^64. -/
def Obligations.UpdateCountsBytesModulo : Prop :=
  ∀ (data : List Byte) (s t : State), s.phase = .active → exec (.update data) s = .next t →
    t.totalLen.toNat = (s.totalLen.toNat + data.length) % 2 ^ 64

/-- UPDATE's frame and response while a message is in progress: of the registers only H, BUF and TOTAL_LEN
may change (42_update.md section 1). -/
def Obligations.UpdateChangesNothingElse : Prop :=
  ∀ (data : List Byte) (s : State), s.phase = .active → ∃ t, exec (.update data) s = .next t ∧
    t.digestLen = s.digestLen ∧ t.phase = .active ∧ t.commands = s.commands ∧
    t.laterCommands = s.laterCommands ∧ t.earlierResponses = s.earlierResponses ∧
    t.responses = s.responses ++ [0x00]

/-- A payload that does not fill the buffer extends it and compresses nothing: H keeps its value, the valid
bytes keep theirs, and the payload stands after them (42_update.md section 2, step 2 of R77). -/
def Obligations.ShortUpdateOnlyExtendsTheBuffer : Prop :=
  ∀ (data : List Byte) (s t : State), s.phase = .active → s.fill + data.length < 64 →
    exec (.update data) s = .next t →
    t.h = s.h ∧ (∀ (j : Nat) (_ : j < 64), j < s.fill → t.buf[j] = s.buf[j]) ∧
    (∀ (j : Nat) (_ : s.fill + j < 64), j < data.length → t.buf[s.fill + j] = data.getD j 0)

/-- An accepted UPDATE with no payload changes no register and answers 00 (42_update.md section 3, the
spec's own inference at R83). -/
def Obligations.EmptyUpdateOnlyAnswers : Prop :=
  ∀ s : State, s.phase = .active →
    exec (.update []) s = .next { s with responses := s.responses ++ [0x00] }

/-- Chunk invariance: one UPDATE and the same bytes in two leave the same H, TOTAL_LEN, DIGEST_LEN, PHASE
and valid bytes of BUF, and make the same Compress calls in the same order (42_update.md section 3, R81). -/
def Obligations.ChunksDoNotMatter : Prop :=
  ∀ (a b : List Byte) (s : State), s.phase = .active → ∃ one mid two,
    exec (.update (a ++ b)) s = .next one ∧ exec (.update a) s = .next mid ∧ exec (.update b) mid = .next two ∧
    one.h = two.h ∧ one.totalLen = two.totalLen ∧ one.digestLen = two.digestLen ∧ one.phase = two.phase ∧
    (∀ (j : Nat) (_ : j < 64), j < one.fill → one.buf[j] = two.buf[j]) ∧
    compressCalls (.update (a ++ b)) s = compressCalls (.update a) s ++ compressCalls (.update b) mid

/-- UPDATE is the byte-at-a-time fold on everything specified (42_update.md section 3, the spec's own
inference at R81). -/
def Obligations.UpdateIsAByteFold : Prop :=
  ∀ (data : List Byte) (s : State), s.phase = .active →
    SameSpecified (absorb data s) (data.foldl (fun s x => absorbByte x s) s)

/-- An UPDATE folds Compress over floor((fill + LEN) / 64) blocks if it is accepted and over none if it is
rejected (42_update.md section 1, the spec's own inference at R76; 60_exceptions.md R99). -/
def Obligations.UpdateCompressCount : Prop :=
  ∀ (data : List Byte) (s : State), ∃ t, exec (.update data) s = .next t ∧
    t.h = hashBlocks s.h (compressCalls (.update data) s) ∧
    (compressCalls (.update data) s).length = if s.phase = .active then (s.fill + data.length) / 64 else 0

/-- H changes by Compress calls only, but for INIT (40_compression.md section 1, R57 and R70). -/
def Obligations.HashChangesOnlyByCompress : Prop :=
  ∀ (i : Instr) (s t : State), (∀ variant, i ≠ .init variant) → exec i s = .next t →
    t.h = hashBlocks s.h (compressCalls i s)

/-! ## FINAL -/

/-- R91: an accepted FINAL emits the status byte and the first DIGEST_LEN bytes of H, big-endian, and
leaves the Context finalized; of the registers only H, BUF and PHASE may change. -/
def Obligations.FinalEmitsTheDigestOfH : Prop :=
  ∀ s : State, s.phase = .active → ∃ t, exec .final s = .next t ∧
    t.responses = s.responses ++ (0x00 : Byte) ::
      (be32Bytes t.h[0] ++ be32Bytes t.h[1] ++ be32Bytes t.h[2] ++ be32Bytes t.h[3] ++
       be32Bytes t.h[4] ++ be32Bytes t.h[5] ++ be32Bytes t.h[6] ++ be32Bytes t.h[7]).take s.digestLen.toNat ∧
    t.phase = .finalized ∧ t.totalLen = s.totalLen ∧ t.digestLen = s.digestLen ∧ t.commands = s.commands ∧
    t.laterCommands = s.laterCommands ∧ t.earlierResponses = s.earlierResponses

/-- The SHA-224 digest leaves H[7] out entirely and the SHA-256 digest is all of H (43_finalize.md section
3, 90_conflicts.md C2). -/
def Obligations.Sha224LeavesOutTheEighthWord : Prop :=
  ∀ s : State,
    (s.digestLen = 28 → digest s = be32Bytes s.h[0] ++ be32Bytes s.h[1] ++ be32Bytes s.h[2] ++ be32Bytes s.h[3] ++
      be32Bytes s.h[4] ++ be32Bytes s.h[5] ++ be32Bytes s.h[6]) ∧
    (s.digestLen = 32 → digest s = be32Bytes s.h[0] ++ be32Bytes s.h[1] ++ be32Bytes s.h[2] ++ be32Bytes s.h[3] ++
      be32Bytes s.h[4] ++ be32Bytes s.h[5] ++ be32Bytes s.h[6] ++ be32Bytes s.h[7])

/-- R86 to R90: with a fill of at most 55 FINAL compresses one block, the valid bytes, the marker, zeros,
and the bit length big-endian in bytes 56 to 63; with a fill of 56 or more it compresses the block of the
valid bytes, the marker and zeros, and then a block of zeros and the bit length. -/
def Obligations.FinalCompressesTheMarkedZeroFilledBlocks : Prop :=
  (∀ (s : State) (blk : Block), s.phase = .active → s.fill ≤ 55 →
    (∀ (j : Nat) (_ : j < 64), j < s.fill → blk[j] = s.buf[j]) →
    (∀ (j : Nat) (_ : j < 64), j = s.fill → blk[j] = 0x80) →
    (∀ (j : Nat) (_ : j < 64), s.fill < j → j < 56 → blk[j] = 0x00) →
    (∀ (j : Nat) (_ : j < 64), 56 ≤ j →
      blk[j].toNat = (s.totalLen.toNat * 8 % 2 ^ 64) / 2 ^ (8 * (63 - j)) % 256) →
    ∃ t, exec .final s = .next t ∧ t.h = compress s.h blk) ∧
  (∀ (s : State) (blk1 blk2 : Block), s.phase = .active → 56 ≤ s.fill →
    (∀ (j : Nat) (_ : j < 64), j < s.fill → blk1[j] = s.buf[j]) →
    (∀ (j : Nat) (_ : j < 64), j = s.fill → blk1[j] = 0x80) →
    (∀ (j : Nat) (_ : j < 64), s.fill < j → blk1[j] = 0x00) →
    (∀ (j : Nat) (_ : j < 64), j < 56 → blk2[j] = 0x00) →
    (∀ (j : Nat) (_ : j < 64), 56 ≤ j →
      blk2[j].toNat = (s.totalLen.toNat * 8 % 2 ^ 64) / 2 ^ (8 * (63 - j)) % 256) →
    ∃ t, exec .final s = .next t ∧ t.h = compress (compress s.h blk1) blk2)

/-- The padding FSM, run from F_MARK while a message is in progress, reaches its end in the state FINAL
gives (43_finalize.md section 2, the table of R85). -/
def Obligations.PaddingFsmComputesFinal : Prop :=
  ∀ s : State, s.phase = .active → ∃ t, exec .final s = .next t ∧ fsmStep^[6] (.fMark, s) = (.done, t)

/-- The padded message: its length, a multiple of 64, its zero bytes k = (55 - n) mod 64, and its number of
blocks, floor((n + 8) / 64) + 1 (43_finalize.md section 5, R93 and R94). -/
def Obligations.PaddedMessageIsWholeBlocks : Prop :=
  ∀ m : List Byte,
    ((padZeros m.length : Nat) : Int) = (55 - (m.length : Int)) % 64 ∧
    (padded m).length = m.length + 1 + padZeros m.length + 8 ∧ (padded m).length % 64 = 0 ∧
    (messageBlocks (padded m)).length = (m.length + 8) / 64 + 1

/-- Over a whole message the blocks passed to Compress are those of the padded message, in order, and FINAL
makes one of the calls, or two when the message ends in the last 8 bytes of a block (43_finalize.md
section 5, R93 and R94). -/
def Obligations.CompressCallsAreThePaddedBlocks : Prop :=
  ∀ (variant : BitVec 24) (m : List Byte) (s s1 s2 : State), m.length < 2 ^ 61 →
    exec (.init variant) s = .next s1 → exec (.update m) s1 = .next s2 →
    compressCalls (.update m) s1 ++ compressCalls .final s2 = messageBlocks (padded m) ∧
    (compressCalls .final s2).length = if m.length % 64 ≤ 55 then 1 else 2

/-- What FINAL emits for an absorbed message is the status byte and the digest of the padded message
(43_finalize.md section 5, R94; 00_scope.md R2). -/
def Obligations.FinalEmitsTheDigestOfTheMessage : Prop :=
  ∀ (v : Variant) (m : List Byte) (s : State), s.phase = .active → Absorbed v m s → m.length < 2 ^ 61 →
    ∃ t, exec .final s = .next t ∧ t.responses = s.responses ++ 0x00 :: shaDigest v m ∧ Finished v m t

/-! ## Errors -/

/-- R98 and R100: UPDATE (any LEN) and FINAL are rejected with 02 before any INIT and with 03 after FINAL.
A rejected command changes nothing but the response stream, and a rejected UPDATE still takes its whole
payload from the command stream (R99). -/
def Obligations.RejectedCommandsOnlyAnswer : Prop :=
  (∀ (s : State) (i : Instr), (i = .final ∨ ∃ data, i = .update data) →
    (s.phase = .uninit → exec i s = .next { s with responses := s.responses ++ [0x02] }) ∧
    (s.phase = .finalized → exec i s = .next { s with responses := s.responses ++ [0x03] })) ∧
  (∀ (s : State) (hdr : Word) (data rest : List Byte), hdr.toNat = 2 * 2 ^ 24 + data.length → data.length < 2 ^ 24 →
    s.commands = be32Bytes hdr ++ (data ++ rest) →
    (s.phase = .uninit → step s = .next { s with commands := rest, responses := s.responses ++ [0x02] }) ∧
    (s.phase = .finalized → step s = .next { s with commands := rest, responses := s.responses ++ [0x03] }))

/-- R97: a reserved header, in every phase, is a 4-byte command with no payload and is answered 01; the
engine's registers keep their values. -/
def Obligations.ReservedHeaderIsAnsweredIllegal : Prop :=
  ∀ (s : State) (hdr : Word) (rest : List Byte), s.commands = be32Bytes hdr ++ rest →
    ((hdr.toNat / 2 ^ 24 ≠ 1 ∧ hdr.toNat / 2 ^ 24 ≠ 2 ∧ hdr.toNat / 2 ^ 24 ≠ 3) ∨
      (hdr.toNat / 2 ^ 24 = 3 ∧ hdr.toNat % 2 ^ 24 ≠ 0)) →
    step s = .next { s with commands := rest, responses := s.responses ++ [0x01] }

/-- R53: the response to each command and to a reserved header: one status byte, followed by exactly
DIGEST_LEN digest bytes when FINAL is accepted; INIT is never rejected. The premise is that DIGEST_LEN holds a legal value while a
message is in progress, which the invariant gives. -/
def Obligations.ResponsesHaveTheirForm : Prop :=
  (∀ (i : Instr) (s t : State), (s.phase = .active → s.digestLen = 28 ∨ s.digestLen = 32) →
    exec i s = .next t → ∃ r, t.responses = s.responses ++ r ∧
    match i with
    | .init _ => r = [0x00]
    | .update _ => if s.phase = .active then r = [0x00] else r = [0x02] ∨ r = [0x03]
    | .final =>
      if s.phase = .active then ∃ d, r = 0x00 :: d ∧ d.length = s.digestLen.toNat else r = [0x02] ∨ r = [0x03]) ∧
  (∀ s t : State, answerReserved s = .next t → t.responses = s.responses ++ [0x01])

/-- Every command is answered, in every state, and takes no further byte of the command stream: its
response is appended and nothing emitted before is touched (20_memory.md section 6, R41; 60_exceptions.md R95). -/
def Obligations.EveryCommandIsAnswered : Prop :=
  ∀ (i : Instr) (s : State), ∃ t r, exec i s = .next t ∧ t.responses = s.responses ++ r ∧ r ≠ [] ∧
    t.commands = s.commands ∧ t.laterCommands = s.laterCommands ∧ t.earlierResponses = s.earlierResponses

/-! ## Lifecycle -/

/-- The PHASE transitions of every command, of a reserved header and of hardware reset, and PHASE's codes
(10_state.md section 2, the table of R18). -/
def Obligations.PhaseFollowsTheLifecycle : Prop :=
  (∀ (variant : BitVec 24) (s t : State), exec (.init variant) s = .next t → t.phase = .active) ∧
  (∀ (data : List Byte) (s t : State), exec (.update data) s = .next t → t.phase = s.phase ∧
    (s.phase = .uninit → t.responses = s.responses ++ [0x02]) ∧
    (s.phase = .finalized → t.responses = s.responses ++ [0x03])) ∧
  (∀ s t : State, exec .final s = .next t →
    (s.phase = .uninit → t.phase = .uninit ∧ t.responses = s.responses ++ [0x02]) ∧
    (s.phase = .active → t.phase = .finalized) ∧
    (s.phase = .finalized → t.phase = .finalized ∧ t.responses = s.responses ++ [0x03])) ∧
  (∀ s t : State, answerReserved s = .next t → t.phase = s.phase) ∧
  (∀ next later s, (hardwareReset next later s).phase = .uninit) ∧
  Phase.code .uninit = 0 ∧ Phase.code .active = 1 ∧ Phase.code .finalized = 2

/-- R19: only INIT writes DIGEST_LEN, 28 or 32, and FINAL emits that many digest bytes. (A hardware reset
leaves it without a value, R30; log entry 1.) -/
def Obligations.OnlyInitWritesDigestLen : Prop :=
  (∀ (i : Instr) (s t : State), (∀ variant, i ≠ .init variant) → exec i s = .next t → t.digestLen = s.digestLen) ∧
  (∀ s t : State, answerReserved s = .next t → t.digestLen = s.digestLen) ∧
  (∀ (variant : BitVec 24) (s t : State), exec (.init variant) s = .next t →
    (variant = 224 → t.digestLen = 28) ∧ (variant ≠ 224 → t.digestLen = 32)) ∧
  (∀ s : State, s.digestLen = 28 ∨ s.digestLen = 32 → (digest s).length = s.digestLen.toNat)

/-- The state after reset: UNINIT with an empty response stream, which the spec gives (10_state.md section 7,
70_reset_and_hazards.md section 1), and three clauses that are the model's choice: nothing delivered
(log entry 8), no reset pending (log entry 5) and no closed response stream (log entry 6). -/
def Obligations.ResetStateIsUninit : Prop :=
  State.reset.phase = .uninit ∧ State.reset.responses = [] ∧ State.reset.earlierResponses = [] ∧
  State.reset.commands = [] ∧ State.reset.laterCommands = []

/-- INIT starts the empty message of its variant, and an accepted UPDATE extends the message by its payload
(42_update.md section 3, the spec's own inference at R82; 10_state.md section 6). -/
def Obligations.UpdateExtendsTheMessage : Prop :=
  (∀ (variant : BitVec 24) (s t : State), exec (.init variant) s = .next t →
    Absorbed (selectVariant (variantOperand variant)) [] t) ∧
  (∀ (v : Variant) (m data : List Byte) (s t : State), s.phase = .active → Absorbed v m s →
    exec (.update data) s = .next t → t.phase = .active ∧ Absorbed v (m ++ data) t)

/-- The invariant holds after reset. -/
def Obligations.InvAtReset : Prop := State.reset.Inv

/-- Every step keeps the invariant: while a message is in progress the registers are those of some absorbed
message, and after FINAL those of some finished one (10_state.md section 6, R29). -/
def Obligations.StepKeepsInv : Prop :=
  ∀ s t : State, s.Inv → step s = .next t → t.Inv

/-- The invariant gives DIGEST_LEN its legal values (10_state.md section 2, R17 and R19). -/
def Obligations.InvGivesLegalDigestLen : Prop :=
  ∀ s : State, s.Inv → s.phase ≠ .uninit → s.digestLen = 28 ∨ s.digestLen = 32

/-! ## Steps and runs -/

/-- A step runs the decoded command, with its bytes taken from the command stream (00_scope.md R11,
30_encoding.md R44). -/
def Obligations.StepRunsTheDecodedCommand : Prop :=
  ∀ (s : State) (i : Instr) (rest : List Byte), decode s.commands = .command i rest →
    step s = exec i { s with commands := rest }

/-- With nothing delivered the engine waits and changes no state (60_exceptions.md section 7). -/
def Obligations.IdleEngineChangesNothing : Prop :=
  ∀ s : State, s.commands = [] → s.laterCommands = [] → step s = .next s

/-- A partly delivered command with nothing after it has no step; the two faults are this model's form of
the spec's hang (70_reset_and_hazards.md section 3, 93_implementation_defined.md V6; log entry 4). -/
def Obligations.PartialCommandHangs : Prop :=
  ∀ s : State, s.laterCommands = [] →
    (0 < s.commands.length → s.commands.length < 4 → step s = .fault .waitsForHeader) ∧
    (∀ (hdr : Word) (sent : List Byte), hdr.toNat / 2 ^ 24 = 2 → sent.length < hdr.toNat % 2 ^ 24 →
      s.commands = be32Bytes hdr ++ sent → step s = .fault .waitsForPayload)

/-- Hardware reset takes effect when no whole command is left before it: PHASE becomes UNINIT, nothing is
emitted or lost of what the host observed, a partly delivered command is dropped, and the next byte is
the first of a header (70_reset_and_hazards.md section 1). When the reset takes effect and how the closed
response stream is kept are this model's forms (log entries 5 and 6). The values the other registers take are this
model's choice (log entry 1) and are not stated. -/
def Obligations.HardwareResetDropsAPartialCommand : Prop :=
  ∀ (s : State) (next : List Byte) (later : List (List Byte)), s.laterCommands = next :: later →
    (s.commands.length < 4 ∨ ∃ (hdr : Word) (sent : List Byte), hdr.toNat / 2 ^ 24 = 2 ∧
      sent.length < hdr.toNat % 2 ^ 24 ∧ s.commands = be32Bytes hdr ++ sent) →
    ∃ t, step s = .next t ∧ t.phase = .uninit ∧ t.observation = s.observation ∧ t.responses = [] ∧
      t.commands = next ∧ t.laterCommands = later

/-- No value the spec leaves open is ever seen: two states that agree on what is specified stop alike, or
step to states that again agree, responses included (10_state.md sections 2 and 7, R23 and R30;
43_finalize.md section 4). -/
def Obligations.UnspecifiedValuesAreNeverSeen : Prop :=
  ∀ s t : State, SameSpecified s t →
    (∃ s' t', step s = .next s' ∧ step t = .next t' ∧ SameSpecified s' t') ∨
    (∃ f, step s = .fault f ∧ step t = .fault f)

/-- The standard claim: from any state, INIT, any UPDATEs of at most MAX_UPDATE_LEN bytes and FINAL answer
00, 00 for each UPDATE, and 00 with the digest of the whole message (70_reset_and_hazards.md section 5,
the spec's own inference at R120). -/
def Obligations.AnyChunkingGivesTheDigest : Prop :=
  ∀ (s : State) (variant : BitVec 24) (chunks : List (List Byte)) (rest : List Byte),
    (∀ c ∈ chunks, c.length ≤ Config.maxUpdateLen) → chunks.flatten.length < 2 ^ 61 →
    s.commands = encodeAll (.init variant :: (chunks.map .update ++ [.final])) ++ rest →
    ∃ t, Host.Core.run core (chunks.length + 2) s = .next t ∧ t.commands = rest ∧
      t.responses = s.responses ++ (0x00 :: (List.replicate chunks.length 0x00 ++
        0x00 :: shaDigest (selectVariant (variantOperand variant)) chunks.flatten))

/-- Engines are independent: a step of one changes no other, and steps of two engines commute
(60_exceptions.md section 6, R106). -/
def Obligations.EnginesDoNotAffectEachOther : Prop :=
  ∀ (n : Nat) (p q : Platform n) (k : Fin n), p.stepEngine k = .next q →
    step p[k] = .next q[k] ∧ (∀ j : Fin n, j ≠ k → q[j] = p[j]) ∧
    (∀ (j : Fin n) (r : Platform n), j ≠ k → q.stepEngine j = .next r →
      ∃ q', p.stepEngine j = .next q' ∧ q'.stepEngine k = .next r)

/-- A long update is split into UPDATEs that the header can express and that carry its bytes in order, and
running them gives the specified state of one unsplit update but for the extra status bytes
(30_encoding.md section 8, R56; decision D4). -/
def Obligations.SplitUpdateIsOneUpdate : Prop :=
  ∀ (bytes : List Byte),
    (∀ i ∈ updateCommands bytes, i.wf = true) ∧ (updateCommands bytes).flatMap payload = bytes ∧
    ∀ s : State, s.phase = .active → ∃ one many,
      exec (.update bytes) s = .next one ∧ runCommands (updateCommands bytes) s = .next many ∧
      SameSpecified one { many with responses := one.responses } ∧
      many.responses = s.responses ++ List.replicate (updateCommands bytes).length 0x00
end

