-- ==== Sys2Proof/Laws/Bytes.lean ====
section
/-! SUPPORT. Laws of the byte conversions and of writing into a block. -/

namespace Sys2Proof.Machine

/-- Byte i of a block written from `start` (R77, R85). -/
@[simp] theorem getElem_overwrite (blk : Block) (start : Nat) (bs : List Byte) (i : Nat) (hi : i < 64) :
    (overwrite blk start bs)[i] =
      if start ≤ i ∧ i < start + bs.length then bs.getD (i - start) 0 else blk[i] := by
  simp [overwrite]

@[simp] theorem getElem_blockOfBytes (l : List Byte) (i : Nat) (hi : i < 64) :
    (blockOfBytes l)[i] = l.getD i 0 := by
  simp [blockOfBytes]

/-- Writing no byte changes nothing. -/
@[simp] theorem overwrite_nil (blk : Block) (start : Nat) : overwrite blk start [] = blk := by
  refine Vector.ext fun i hi => ?_
  rw [getElem_overwrite, if_neg (by simp only [List.length_nil]; omega)]

/-- A vector laid above another, as a number. -/
theorem toNat_append {m n : Nat} (x : BitVec m) (y : BitVec n) :
    (x ++ y).toNat = x.toNat * 2 ^ n + y.toNat := by
  rw [BitVec.toNat_append, Nat.shiftLeft_eq, Nat.mul_comm, Nat.two_pow_add_eq_or_of_lt y.isLt]

/-- be32 as a number, the first byte most significant (R9). -/
theorem be32_toNat (b0 b1 b2 b3 : Byte) :
    (be32 b0 b1 b2 b3).toNat = b0.toNat * 2 ^ 24 + b1.toNat * 2 ^ 16 + b2.toNat * 2 ^ 8 + b3.toNat := by
  rw [be32, toNat_append, toNat_append, toNat_append]
  omega

/-- Decomposing a word and composing it again gives it back (R9, R35). -/
theorem be32_extract (w : Word) :
    be32 (w.extractLsb' 24 8) (w.extractLsb' 16 8) (w.extractLsb' 8 8) (w.extractLsb' 0 8) = w := by
  apply BitVec.eq_of_toNat_eq
  rw [be32_toNat]
  have := w.isLt
  simp only [BitVec.extractLsb'_toNat, Nat.shiftRight_eq_div_pow]
  omega

/-- Byte k from the bottom of a composed word. -/
theorem be32_toNat_byte (b0 b1 b2 b3 : Byte) :
    (be32 b0 b1 b2 b3).toNat / 2 ^ 24 % 2 ^ 8 = b0.toNat ∧ (be32 b0 b1 b2 b3).toNat / 2 ^ 16 % 2 ^ 8 = b1.toNat ∧
    (be32 b0 b1 b2 b3).toNat / 2 ^ 8 % 2 ^ 8 = b2.toNat ∧ (be32 b0 b1 b2 b3).toNat % 2 ^ 8 = b3.toNat := by
  have h0 := b0.isLt; have h1 := b1.isLt; have h2 := b2.isLt; have h3 := b3.isLt
  rw [be32_toNat]
  omega

/-- Composing four bytes and decomposing the word gives them back (R9, R35). -/
theorem be32Bytes_be32 (b0 b1 b2 b3 : Byte) : be32Bytes (be32 b0 b1 b2 b3) = [b0, b1, b2, b3] := by
  obtain ⟨h0, h1, h2, h3⟩ := be32_toNat_byte b0 b1 b2 b3
  have key (k : Nat) (b : Byte) (h : (be32 b0 b1 b2 b3).toNat / 2 ^ k % 2 ^ 8 = b.toNat) :
      (be32 b0 b1 b2 b3).extractLsb' k 8 = b :=
    BitVec.eq_of_toNat_eq (by rw [BitVec.extractLsb'_toNat, Nat.shiftRight_eq_div_pow, h])
  rw [be32Bytes, key 24 b0 h0, key 16 b1 h1, key 8 b2 h2, key 0 b3 (by simpa using h3)]

@[simp] theorem length_be32Bytes (w : Word) : (be32Bytes w).length = 4 := by simp only [be32Bytes, List.length_cons, List.length_nil]

@[simp] theorem length_be64Bytes (v : BitVec 64) : (be64Bytes v).length = 8 := by
  simp only [be64Bytes, List.length_cons, List.length_nil]

/-- Zeros read as zero, at an index past their end too. -/
theorem getD_replicate_zero (n i : Nat) : (List.replicate n (0 : Byte)).getD i 0 = 0 := by
  rw [List.getD_eq_getElem?_getD, List.getElem?_replicate]
  split <;> rfl

/-- Byte k of a decomposed 64-bit value, most significant first (R9). -/
theorem be64Bytes_getD (v : BitVec 64) (k : Nat) (hk : k < 8) :
    ((be64Bytes v).getD k 0).toNat = v.toNat / 2 ^ (8 * (7 - k)) % 256 := by
  interval_cases k <;> simp [be64Bytes, Nat.shiftRight_eq_div_pow]

end Sys2Proof.Machine
end

