-- ==== Sys2Proof/Laws/Compression.lean ====
section
/-! SUPPORT. Laws of the rotation and of the message schedule. -/

namespace Sys2Proof.Machine

/-- Bit i of a rotated word (R8). -/
theorem rotr_getLsbD (x : Word) (n i : Nat) (hi : i < 32) (h0 : 0 < n) (hn : n < 32) :
    (rotr x n).getLsbD i = x.getLsbD ((i + n) % 32) := by
  simp only [rotr, BitVec.getLsbD_or, BitVec.getLsbD_ushiftRight, BitVec.getLsbD_shiftLeft, hi]
  by_cases h : i + n < 32
  · rw [Nat.mod_eq_of_lt h, Nat.add_comm n]
    simp
    intros
    omega
  · rw [show (i + n) % 32 = i - (32 - n) by omega, BitVec.getLsbD_of_ge _ _ (by omega)]
    simp
    intro
    omega

/-- What round r reads of the ROM (R64). -/
@[simp] theorem getElem_kRom (r : Nat) (hr : r < 64) : kRom[r] = roundConstant r := by
  simp [kRom]

theorem length_blockWords (blk : Block) : (blockWords blk).length = 16 := by simp [blockWords]

/-- A longer schedule keeps the words it had (R65). -/
theorem extendSchedule_getD (ws : List Word) (t : Nat) (ht : t < ws.length) :
    (extendSchedule ws).getD t 0 = ws.getD t 0 := by
  simp [extendSchedule, List.getD_eq_getElem?_getD, List.getElem?_append_left ht]

/-- The word a schedule gains (R65). -/
theorem extendSchedule_getD_length (ws : List Word) :
    (extendSchedule ws).getD ws.length 0 = nextScheduleWord ws := by
  rw [extendSchedule, List.getD_eq_getElem?_getD, List.getElem?_append_right (by omega)]
  simp

end Sys2Proof.Machine
end

