-- ==== Sys2Proof/Laws/Decode.lean ====
section
/-! SUPPORT. Laws of the header fields and of the stream decoder. -/

namespace Sys2Proof

open Sys2Proof.Machine

/-- A field laid above another is read back (R45). -/
theorem headerOpc_append (opc : BitVec 8) (arg : BitVec 24) : headerOpc (opc ++ arg) = opc := by
  apply BitVec.eq_of_toNat_eq
  have ha := arg.isLt
  have ho := opc.isLt
  rw [headerOpc, BitVec.extractLsb'_toNat, toNat_append, Nat.shiftRight_eq_div_pow]
  omega

theorem headerArg_append (opc : BitVec 8) (arg : BitVec 24) : headerArg (opc ++ arg) = arg := by
  apply BitVec.eq_of_toNat_eq
  have ha := arg.isLt
  rw [headerArg, BitVec.extractLsb'_toNat, toNat_append, Nat.shiftRight_eq_div_pow]
  omega

/-- A header is its two fields (R45). -/
theorem headerOpc_append_headerArg (hdr : Word) : (headerOpc hdr ++ headerArg hdr : BitVec 32) = hdr := by
  apply BitVec.eq_of_toNat_eq
  have ha := (headerArg hdr).isLt
  have hw := hdr.isLt
  rw [toNat_append]
  simp only [headerOpc, headerArg, BitVec.extractLsb'_toNat, Nat.shiftRight_eq_div_pow]
  omega

/-- A stream that starts with the bytes of a header decodes by that header (R44, R51). -/
theorem decode_be32Bytes (hdr : Word) (rest : List Byte) :
    decode (be32Bytes hdr ++ rest) =
      match decodeHeader hdr with
      | .init variant => .command (.init variant) rest
      | .update len =>
        if len.toNat ≤ rest.length then .command (.update (rest.take len.toNat)) (rest.drop len.toNat)
        else .shortPayload len
      | .final => .command .final rest
      | .illegal why => .reserved why rest := by
  rw [be32Bytes]
  cases h : decodeHeader hdr <;> simp only [List.cons_append, List.nil_append, decode, be32_extract, h]

/-- A stream of at least four bytes starts with the bytes of a header (R44). -/
theorem exists_header {bs : List Byte} (h : 4 ≤ bs.length) :
    ∃ hdr rest, bs = be32Bytes hdr ++ rest := by
  match bs, h with
  | b0 :: b1 :: b2 :: b3 :: rest, _ => exact ⟨be32 b0 b1 b2 b3, rest, by rw [be32Bytes_be32]; rfl⟩

/-- A stream of fewer than four bytes holds no header. -/
theorem decode_of_lt {bs : List Byte} (h : bs.length < 4) : decode bs = .shortHeader := by
  match bs, h with
  | [], _ => rfl
  | [_], _ => rfl
  | [_, _], _ => rfl
  | [_, _, _], _ => rfl
  | _ :: _ :: _ :: _ :: _, h => simp at h; omega

/-- The field OPC as a number (R45). -/
theorem headerOpc_toNat (hdr : Word) : (headerOpc hdr).toNat = hdr.toNat / 2 ^ 24 := by
  have := hdr.isLt
  simp [headerOpc, Nat.shiftRight_eq_div_pow]
  omega

/-- The field ARG as a number (R45). -/
theorem headerArg_toNat (hdr : Word) : (headerArg hdr).toNat = hdr.toNat % 2 ^ 24 := by
  simp [headerArg]

end Sys2Proof
end

