-- ==== Sys2Proof/Laws/Message.lean ====
section
/-! SUPPORT. Laws of messages and their blocks. -/

namespace Sys2Proof.Machine

theorem length_messageBlocks (m : List Byte) : (messageBlocks m).length = m.length / 64 := by
  simp [messageBlocks]

theorem messageBlocks_of_lt {m : List Byte} (h : m.length < 64) : messageBlocks m = [] := by
  simp [messageBlocks, Nat.div_eq_of_lt h]

@[simp] theorem getElem_messageBlock (m : List Byte) (k i : Nat) (hi : i < 64) :
    (messageBlock m k)[i] = m.getD (64 * k + i) 0 := by
  rw [messageBlock, Vector.getElem_ofFn]

theorem getD_drop (m : List Byte) (n i : Nat) : (m.drop n).getD i 0 = m.getD (n + i) 0 := by
  rw [List.getD_eq_getElem?_getD, List.getD_eq_getElem?_getD, List.getElem?_drop]

/-- The first block of a message. -/
theorem messageBlock_zero (m : List Byte) : messageBlock m 0 = blockOfBytes m := by
  refine Vector.ext fun i hi => ?_
  rw [getElem_messageBlock, getElem_blockOfBytes, Nat.mul_zero, Nat.zero_add]

/-- A later block is one of the message without its first 64 bytes. -/
theorem messageBlock_succ (m : List Byte) (k : Nat) :
    messageBlock m (k + 1) = messageBlock (m.drop 64) k := by
  refine Vector.ext fun i hi => ?_
  rw [getElem_messageBlock, getElem_messageBlock, getD_drop, ← Nat.add_assoc, Nat.mul_succ, Nat.add_comm 64]

theorem messageBlock_comp_succ (m : List Byte) : messageBlock m ∘ Nat.succ = messageBlock (m.drop 64) :=
  funext (messageBlock_succ m)

/-- A message of at least one block is its first block and the rest. -/
theorem messageBlocks_of_le {m : List Byte} (h : 64 ≤ m.length) :
    messageBlocks m = blockOfBytes m :: messageBlocks (m.drop 64) := by
  have hk : m.length / 64 = (m.length - 64) / 64 + 1 := by omega
  simp only [messageBlocks, hk, List.range_succ_eq_map, List.map_cons, messageBlock_zero, List.map_map,
    List.length_drop]
  rw [messageBlock_comp_succ]

/-- 64 bytes in front of a message are one block in front of its blocks. -/
theorem messageBlocks_append {a b : List Byte} (h : a.length = 64) :
    messageBlocks (a ++ b) = blockOfBytes a :: messageBlocks b := by
  have hb : blockOfBytes (a ++ b) = blockOfBytes a := by
    refine Vector.ext fun i hi => ?_
    simp [List.getD_eq_getElem?_getD, List.getElem?_append_left (h.symm ▸ hi : i < a.length)]
  rw [messageBlocks_of_le (by simp; omega), hb, List.drop_left' h]

@[simp] theorem hashBlocks_nil (h : HashState) : hashBlocks h [] = h := rfl

@[simp] theorem hashBlocks_cons (h : HashState) (blk : Block) (blks : List Block) :
    hashBlocks h (blk :: blks) = hashBlocks (compress h blk) blks := rfl

theorem hashBlocks_append (h : HashState) (a b : List Block) :
    hashBlocks h (a ++ b) = hashBlocks (hashBlocks h a) b := List.foldl_append

/-- The blocks of a message continued by `b` are its own blocks, then those of its leftover continued by
`b` (R36). -/
theorem messageBlocks_append_leftover (a b : List Byte) :
    messageBlocks (a ++ b) = messageBlocks a ++ messageBlocks (a.drop (64 * (a.length / 64)) ++ b) := by
  induction hn : a.length / 64 generalizing a with
  | zero => simp [messageBlocks_of_lt (by omega : a.length < 64)]
  | succ n ih =>
    have hl : 64 ≤ a.length := by omega
    have h64 : (a.take 64).length = 64 := by simp; omega
    have ih' := ih (a.drop 64) (by simp only [List.length_drop]; omega)
    rw [messageBlocks_of_le hl]
    conv_lhs => rw [← List.take_append_drop 64 a, List.append_assoc, messageBlocks_append h64, ih']
    rw [List.drop_drop]
    have hb : blockOfBytes (a.take 64) = blockOfBytes a := by
      refine Vector.ext fun i hi => ?_
      simp [List.getD_eq_getElem?_getD, hi]
    rw [hb, List.cons_append]
    rw [Nat.mul_succ, Nat.add_comm 64]

end Sys2Proof.Machine
end

