-- ==== Sys2Proof/Laws/State.lean ====
section
/-! SUPPORT. What each named update leaves in each field of State, one lemma per field and update. -/

namespace Sys2Proof.Machine

section
variable (s : State) (x : HashState)

@[simp] theorem State.setH_h : (s.setH x).h = x := by cases s; rfl
@[simp] theorem State.setH_buf : (s.setH x).buf = s.buf := by cases s; rfl
@[simp] theorem State.setH_totalLen : (s.setH x).totalLen = s.totalLen := by cases s; rfl
@[simp] theorem State.setH_digestLen : (s.setH x).digestLen = s.digestLen := by cases s; rfl
@[simp] theorem State.setH_phase : (s.setH x).phase = s.phase := by cases s; rfl
@[simp] theorem State.setH_commands : (s.setH x).commands = s.commands := by cases s; rfl
@[simp] theorem State.setH_laterCommands : (s.setH x).laterCommands = s.laterCommands := by cases s; rfl
@[simp] theorem State.setH_responses : (s.setH x).responses = s.responses := by cases s; rfl
@[simp] theorem State.setH_earlierResponses : (s.setH x).earlierResponses = s.earlierResponses := by cases s; rfl

end

section
variable (s : State) (x : Block)

@[simp] theorem State.setBuf_h : (s.setBuf x).h = s.h := by cases s; rfl
@[simp] theorem State.setBuf_buf : (s.setBuf x).buf = x := by cases s; rfl
@[simp] theorem State.setBuf_totalLen : (s.setBuf x).totalLen = s.totalLen := by cases s; rfl
@[simp] theorem State.setBuf_digestLen : (s.setBuf x).digestLen = s.digestLen := by cases s; rfl
@[simp] theorem State.setBuf_phase : (s.setBuf x).phase = s.phase := by cases s; rfl
@[simp] theorem State.setBuf_commands : (s.setBuf x).commands = s.commands := by cases s; rfl
@[simp] theorem State.setBuf_laterCommands : (s.setBuf x).laterCommands = s.laterCommands := by cases s; rfl
@[simp] theorem State.setBuf_responses : (s.setBuf x).responses = s.responses := by cases s; rfl
@[simp] theorem State.setBuf_earlierResponses : (s.setBuf x).earlierResponses = s.earlierResponses := by cases s; rfl

end

section
variable (s : State) (x : BitVec 64)

@[simp] theorem State.setTotalLen_h : (s.setTotalLen x).h = s.h := by cases s; rfl
@[simp] theorem State.setTotalLen_buf : (s.setTotalLen x).buf = s.buf := by cases s; rfl
@[simp] theorem State.setTotalLen_totalLen : (s.setTotalLen x).totalLen = x := by cases s; rfl
@[simp] theorem State.setTotalLen_digestLen : (s.setTotalLen x).digestLen = s.digestLen := by cases s; rfl
@[simp] theorem State.setTotalLen_phase : (s.setTotalLen x).phase = s.phase := by cases s; rfl
@[simp] theorem State.setTotalLen_commands : (s.setTotalLen x).commands = s.commands := by cases s; rfl
@[simp] theorem State.setTotalLen_laterCommands : (s.setTotalLen x).laterCommands = s.laterCommands := by cases s; rfl
@[simp] theorem State.setTotalLen_responses : (s.setTotalLen x).responses = s.responses := by cases s; rfl
@[simp] theorem State.setTotalLen_earlierResponses : (s.setTotalLen x).earlierResponses = s.earlierResponses := by cases s; rfl

end

section
variable (s : State) (x : BitVec 6)

@[simp] theorem State.setDigestLen_h : (s.setDigestLen x).h = s.h := by cases s; rfl
@[simp] theorem State.setDigestLen_buf : (s.setDigestLen x).buf = s.buf := by cases s; rfl
@[simp] theorem State.setDigestLen_totalLen : (s.setDigestLen x).totalLen = s.totalLen := by cases s; rfl
@[simp] theorem State.setDigestLen_digestLen : (s.setDigestLen x).digestLen = x := by cases s; rfl
@[simp] theorem State.setDigestLen_phase : (s.setDigestLen x).phase = s.phase := by cases s; rfl
@[simp] theorem State.setDigestLen_commands : (s.setDigestLen x).commands = s.commands := by cases s; rfl
@[simp] theorem State.setDigestLen_laterCommands : (s.setDigestLen x).laterCommands = s.laterCommands := by cases s; rfl
@[simp] theorem State.setDigestLen_responses : (s.setDigestLen x).responses = s.responses := by cases s; rfl
@[simp] theorem State.setDigestLen_earlierResponses : (s.setDigestLen x).earlierResponses = s.earlierResponses := by cases s; rfl

end

section
variable (s : State) (x : Phase)

@[simp] theorem State.setPhase_h : (s.setPhase x).h = s.h := by cases s; rfl
@[simp] theorem State.setPhase_buf : (s.setPhase x).buf = s.buf := by cases s; rfl
@[simp] theorem State.setPhase_totalLen : (s.setPhase x).totalLen = s.totalLen := by cases s; rfl
@[simp] theorem State.setPhase_digestLen : (s.setPhase x).digestLen = s.digestLen := by cases s; rfl
@[simp] theorem State.setPhase_phase : (s.setPhase x).phase = x := by cases s; rfl
@[simp] theorem State.setPhase_commands : (s.setPhase x).commands = s.commands := by cases s; rfl
@[simp] theorem State.setPhase_laterCommands : (s.setPhase x).laterCommands = s.laterCommands := by cases s; rfl
@[simp] theorem State.setPhase_responses : (s.setPhase x).responses = s.responses := by cases s; rfl
@[simp] theorem State.setPhase_earlierResponses : (s.setPhase x).earlierResponses = s.earlierResponses := by cases s; rfl

end

section
variable (s : State) (x : List Byte)

@[simp] theorem State.setCommands_h : (s.setCommands x).h = s.h := by cases s; rfl
@[simp] theorem State.setCommands_buf : (s.setCommands x).buf = s.buf := by cases s; rfl
@[simp] theorem State.setCommands_totalLen : (s.setCommands x).totalLen = s.totalLen := by cases s; rfl
@[simp] theorem State.setCommands_digestLen : (s.setCommands x).digestLen = s.digestLen := by cases s; rfl
@[simp] theorem State.setCommands_phase : (s.setCommands x).phase = s.phase := by cases s; rfl
@[simp] theorem State.setCommands_commands : (s.setCommands x).commands = x := by cases s; rfl
@[simp] theorem State.setCommands_laterCommands : (s.setCommands x).laterCommands = s.laterCommands := by cases s; rfl
@[simp] theorem State.setCommands_responses : (s.setCommands x).responses = s.responses := by cases s; rfl
@[simp] theorem State.setCommands_earlierResponses : (s.setCommands x).earlierResponses = s.earlierResponses := by cases s; rfl

end

section
variable (s : State) (bs : List Byte)

@[simp] theorem State.emit_h : (s.emit bs).h = s.h := by cases s; rfl
@[simp] theorem State.emit_buf : (s.emit bs).buf = s.buf := by cases s; rfl
@[simp] theorem State.emit_totalLen : (s.emit bs).totalLen = s.totalLen := by cases s; rfl
@[simp] theorem State.emit_digestLen : (s.emit bs).digestLen = s.digestLen := by cases s; rfl
@[simp] theorem State.emit_phase : (s.emit bs).phase = s.phase := by cases s; rfl
@[simp] theorem State.emit_commands : (s.emit bs).commands = s.commands := by cases s; rfl
@[simp] theorem State.emit_laterCommands : (s.emit bs).laterCommands = s.laterCommands := by cases s; rfl
@[simp] theorem State.emit_responses : (s.emit bs).responses = s.responses ++ bs := by cases s; rfl
@[simp] theorem State.emit_earlierResponses : (s.emit bs).earlierResponses = s.earlierResponses := by cases s; rfl

end

section
variable (s : State) (start : Nat) (bs : List Byte)

@[simp] theorem State.writeBuf_h : (s.writeBuf start bs).h = s.h := by
  simp only [State.writeBuf, State.setBuf_h]
@[simp] theorem State.writeBuf_buf : (s.writeBuf start bs).buf = overwrite s.buf start bs := by
  simp only [State.writeBuf, State.setBuf_buf]
@[simp] theorem State.writeBuf_totalLen : (s.writeBuf start bs).totalLen = s.totalLen := by
  simp only [State.writeBuf, State.setBuf_totalLen]
@[simp] theorem State.writeBuf_digestLen : (s.writeBuf start bs).digestLen = s.digestLen := by
  simp only [State.writeBuf, State.setBuf_digestLen]
@[simp] theorem State.writeBuf_phase : (s.writeBuf start bs).phase = s.phase := by
  simp only [State.writeBuf, State.setBuf_phase]
@[simp] theorem State.writeBuf_commands : (s.writeBuf start bs).commands = s.commands := by
  simp only [State.writeBuf, State.setBuf_commands]
@[simp] theorem State.writeBuf_laterCommands : (s.writeBuf start bs).laterCommands = s.laterCommands := by
  simp only [State.writeBuf, State.setBuf_laterCommands]
@[simp] theorem State.writeBuf_responses : (s.writeBuf start bs).responses = s.responses := by
  simp only [State.writeBuf, State.setBuf_responses]
@[simp] theorem State.writeBuf_earlierResponses : (s.writeBuf start bs).earlierResponses = s.earlierResponses := by
  simp only [State.writeBuf, State.setBuf_earlierResponses]

end

section
variable (s : State) (blk : Block)

@[simp] theorem State.compressBlock_h : (s.compressBlock blk).h = compress s.h blk := by cases s; rfl
@[simp] theorem State.compressBlock_buf : (s.compressBlock blk).buf = s.buf := by cases s; rfl
@[simp] theorem State.compressBlock_totalLen : (s.compressBlock blk).totalLen = s.totalLen := by cases s; rfl
@[simp] theorem State.compressBlock_digestLen : (s.compressBlock blk).digestLen = s.digestLen := by cases s; rfl
@[simp] theorem State.compressBlock_phase : (s.compressBlock blk).phase = s.phase := by cases s; rfl
@[simp] theorem State.compressBlock_commands : (s.compressBlock blk).commands = s.commands := by cases s; rfl
@[simp] theorem State.compressBlock_laterCommands : (s.compressBlock blk).laterCommands = s.laterCommands := by cases s; rfl
@[simp] theorem State.compressBlock_responses : (s.compressBlock blk).responses = s.responses := by cases s; rfl
@[simp] theorem State.compressBlock_earlierResponses : (s.compressBlock blk).earlierResponses = s.earlierResponses := by cases s; rfl

end

section
variable (s : State) (n : Nat)

@[simp] theorem State.countBytes_h : (s.countBytes n).h = s.h := by cases s; rfl
@[simp] theorem State.countBytes_buf : (s.countBytes n).buf = s.buf := by cases s; rfl
@[simp] theorem State.countBytes_totalLen : (s.countBytes n).totalLen = s.totalLen + BitVec.ofNat 64 n := by cases s; rfl
@[simp] theorem State.countBytes_digestLen : (s.countBytes n).digestLen = s.digestLen := by cases s; rfl
@[simp] theorem State.countBytes_phase : (s.countBytes n).phase = s.phase := by cases s; rfl
@[simp] theorem State.countBytes_commands : (s.countBytes n).commands = s.commands := by cases s; rfl
@[simp] theorem State.countBytes_laterCommands : (s.countBytes n).laterCommands = s.laterCommands := by cases s; rfl
@[simp] theorem State.countBytes_responses : (s.countBytes n).responses = s.responses := by cases s; rfl
@[simp] theorem State.countBytes_earlierResponses : (s.countBytes n).earlierResponses = s.earlierResponses := by cases s; rfl

end

section
variable (s : State)

@[simp] theorem State.setH_fill (x : HashState) : (s.setH x).fill = s.fill := by cases s; rfl
@[simp] theorem State.setBuf_fill (x : Block) : (s.setBuf x).fill = s.fill := by cases s; rfl
@[simp] theorem State.setDigestLen_fill (x : BitVec 6) : (s.setDigestLen x).fill = s.fill := by cases s; rfl
@[simp] theorem State.setPhase_fill (x : Phase) : (s.setPhase x).fill = s.fill := by cases s; rfl
@[simp] theorem State.setCommands_fill (x : List Byte) : (s.setCommands x).fill = s.fill := by cases s; rfl
@[simp] theorem State.emit_fill (x : List Byte) : (s.emit x).fill = s.fill := by cases s; rfl
@[simp] theorem State.compressBlock_fill (x : Block) : (s.compressBlock x).fill = s.fill := by cases s; rfl
@[simp] theorem State.writeBuf_fill (start : Nat) (bs : List Byte) : (s.writeBuf start bs).fill = s.fill := by
  simp only [State.writeBuf, State.setBuf_fill]

theorem State.fill_lt : s.fill < 64 := Nat.mod_lt _ (by decide)

/-- The fill after n more bytes (R21, R78). -/
@[simp] theorem State.countBytes_fill (n : Nat) : (s.countBytes n).fill = (s.fill + n) % 64 := by
  simp only [State.fill, State.countBytes_totalLen, BitVec.toNat_add, BitVec.toNat_ofNat]
  omega

end

section
variable (next : List Byte) (later : List (List Byte)) (s : State)

@[simp] theorem hardwareReset_h : (hardwareReset next later s).h = State.reset.h := by cases s; rfl
@[simp] theorem hardwareReset_buf : (hardwareReset next later s).buf = State.reset.buf := by cases s; rfl
@[simp] theorem hardwareReset_totalLen : (hardwareReset next later s).totalLen = State.reset.totalLen := by cases s; rfl
@[simp] theorem hardwareReset_digestLen : (hardwareReset next later s).digestLen = State.reset.digestLen := by cases s; rfl
@[simp] theorem hardwareReset_phase : (hardwareReset next later s).phase = .uninit := by cases s; rfl
@[simp] theorem hardwareReset_commands : (hardwareReset next later s).commands = next := by cases s; rfl
@[simp] theorem hardwareReset_laterCommands : (hardwareReset next later s).laterCommands = later := by cases s; rfl
@[simp] theorem hardwareReset_responses : (hardwareReset next later s).responses = [] := by cases s; rfl
@[simp] theorem hardwareReset_earlierResponses : (hardwareReset next later s).earlierResponses = s.earlierResponses ++ [s.responses] := by cases s; rfl

end

section
variable (v : Variant) (s : State)

@[simp] theorem startMessage_h : (startMessage v s).h = v.iv := by cases s; rfl
@[simp] theorem startMessage_buf : (startMessage v s).buf = s.buf := by cases s; rfl
@[simp] theorem startMessage_totalLen : (startMessage v s).totalLen = 0 := by cases s; rfl
@[simp] theorem startMessage_digestLen : (startMessage v s).digestLen = v.digestLen := by cases s; rfl
@[simp] theorem startMessage_phase : (startMessage v s).phase = .active := by cases s; rfl
@[simp] theorem startMessage_commands : (startMessage v s).commands = s.commands := by cases s; rfl
@[simp] theorem startMessage_laterCommands : (startMessage v s).laterCommands = s.laterCommands := by cases s; rfl
@[simp] theorem startMessage_responses : (startMessage v s).responses = s.responses := by cases s; rfl
@[simp] theorem startMessage_earlierResponses : (startMessage v s).earlierResponses = s.earlierResponses := by cases s; rfl

end

section
variable (s : State)

@[simp] theorem padMark_h : (padMark s).h = s.h := by
  simp only [padMark, State.writeBuf_h]
theorem padMark_buf : (padMark s).buf = overwrite s.buf s.fill [Config.markerByte] := by
  simp only [padMark, State.writeBuf_buf]
@[simp] theorem padMark_totalLen : (padMark s).totalLen = s.totalLen := by
  simp only [padMark, State.writeBuf_totalLen]
@[simp] theorem padMark_digestLen : (padMark s).digestLen = s.digestLen := by
  simp only [padMark, State.writeBuf_digestLen]
@[simp] theorem padMark_phase : (padMark s).phase = s.phase := by
  simp only [padMark, State.writeBuf_phase]
@[simp] theorem padMark_commands : (padMark s).commands = s.commands := by
  simp only [padMark, State.writeBuf_commands]
@[simp] theorem padMark_laterCommands : (padMark s).laterCommands = s.laterCommands := by
  simp only [padMark, State.writeBuf_laterCommands]
@[simp] theorem padMark_responses : (padMark s).responses = s.responses := by
  simp only [padMark, State.writeBuf_responses]
@[simp] theorem padMark_earlierResponses : (padMark s).earlierResponses = s.earlierResponses := by
  simp only [padMark, State.writeBuf_earlierResponses]
@[simp] theorem padMark_fill : (padMark s).fill = s.fill := by
  simp only [padMark, State.writeBuf_fill]
@[simp] theorem padZero_h : (padZero s).h = s.h := by
  simp only [padZero, State.writeBuf_h]
theorem padZero_buf : (padZero s).buf = overwrite s.buf (s.fill + 1) (List.replicate (63 - s.fill) 0) := by
  simp only [padZero, State.writeBuf_buf]
@[simp] theorem padZero_totalLen : (padZero s).totalLen = s.totalLen := by
  simp only [padZero, State.writeBuf_totalLen]
@[simp] theorem padZero_digestLen : (padZero s).digestLen = s.digestLen := by
  simp only [padZero, State.writeBuf_digestLen]
@[simp] theorem padZero_phase : (padZero s).phase = s.phase := by
  simp only [padZero, State.writeBuf_phase]
@[simp] theorem padZero_commands : (padZero s).commands = s.commands := by
  simp only [padZero, State.writeBuf_commands]
@[simp] theorem padZero_laterCommands : (padZero s).laterCommands = s.laterCommands := by
  simp only [padZero, State.writeBuf_laterCommands]
@[simp] theorem padZero_responses : (padZero s).responses = s.responses := by
  simp only [padZero, State.writeBuf_responses]
@[simp] theorem padZero_earlierResponses : (padZero s).earlierResponses = s.earlierResponses := by
  simp only [padZero, State.writeBuf_earlierResponses]
@[simp] theorem padZero_fill : (padZero s).fill = s.fill := by
  simp only [padZero, State.writeBuf_fill]
@[simp] theorem padSpill_h : (padSpill s).h = compress s.h s.buf := by
  simp only [padSpill, State.writeBuf_h, State.compressBlock_h]
theorem padSpill_buf : (padSpill s).buf = overwrite s.buf 0 (List.replicate 64 0) := by
  simp only [padSpill, State.writeBuf_buf, State.compressBlock_buf, State.compressBlock_buf]
@[simp] theorem padSpill_totalLen : (padSpill s).totalLen = s.totalLen := by
  simp only [padSpill, State.writeBuf_totalLen, State.compressBlock_totalLen]
@[simp] theorem padSpill_digestLen : (padSpill s).digestLen = s.digestLen := by
  simp only [padSpill, State.writeBuf_digestLen, State.compressBlock_digestLen]
@[simp] theorem padSpill_phase : (padSpill s).phase = s.phase := by
  simp only [padSpill, State.writeBuf_phase, State.compressBlock_phase]
@[simp] theorem padSpill_commands : (padSpill s).commands = s.commands := by
  simp only [padSpill, State.writeBuf_commands, State.compressBlock_commands]
@[simp] theorem padSpill_laterCommands : (padSpill s).laterCommands = s.laterCommands := by
  simp only [padSpill, State.writeBuf_laterCommands, State.compressBlock_laterCommands]
@[simp] theorem padSpill_responses : (padSpill s).responses = s.responses := by
  simp only [padSpill, State.writeBuf_responses, State.compressBlock_responses]
@[simp] theorem padSpill_earlierResponses : (padSpill s).earlierResponses = s.earlierResponses := by
  simp only [padSpill, State.writeBuf_earlierResponses, State.compressBlock_earlierResponses]
@[simp] theorem padSpill_fill : (padSpill s).fill = s.fill := by
  simp only [padSpill, State.writeBuf_fill, State.compressBlock_fill]
@[simp] theorem padLength_h : (padLength s).h = s.h := by
  simp only [padLength, State.writeBuf_h]
theorem padLength_buf : (padLength s).buf = overwrite s.buf 56 (be64Bytes (bitLength s)) := by
  simp only [padLength, State.writeBuf_buf]
@[simp] theorem padLength_totalLen : (padLength s).totalLen = s.totalLen := by
  simp only [padLength, State.writeBuf_totalLen]
@[simp] theorem padLength_digestLen : (padLength s).digestLen = s.digestLen := by
  simp only [padLength, State.writeBuf_digestLen]
@[simp] theorem padLength_phase : (padLength s).phase = s.phase := by
  simp only [padLength, State.writeBuf_phase]
@[simp] theorem padLength_commands : (padLength s).commands = s.commands := by
  simp only [padLength, State.writeBuf_commands]
@[simp] theorem padLength_laterCommands : (padLength s).laterCommands = s.laterCommands := by
  simp only [padLength, State.writeBuf_laterCommands]
@[simp] theorem padLength_responses : (padLength s).responses = s.responses := by
  simp only [padLength, State.writeBuf_responses]
@[simp] theorem padLength_earlierResponses : (padLength s).earlierResponses = s.earlierResponses := by
  simp only [padLength, State.writeBuf_earlierResponses]
@[simp] theorem padLength_fill : (padLength s).fill = s.fill := by
  simp only [padLength, State.writeBuf_fill]
@[simp] theorem padLast_h : (padLast s).h = compress s.h s.buf := by
  simp only [padLast, State.compressBlock_h]
@[simp] theorem padLast_buf : (padLast s).buf = s.buf := by
  simp only [padLast, State.compressBlock_buf]
@[simp] theorem padLast_totalLen : (padLast s).totalLen = s.totalLen := by
  simp only [padLast, State.compressBlock_totalLen]
@[simp] theorem padLast_digestLen : (padLast s).digestLen = s.digestLen := by
  simp only [padLast, State.compressBlock_digestLen]
@[simp] theorem padLast_phase : (padLast s).phase = s.phase := by
  simp only [padLast, State.compressBlock_phase]
@[simp] theorem padLast_commands : (padLast s).commands = s.commands := by
  simp only [padLast, State.compressBlock_commands]
@[simp] theorem padLast_laterCommands : (padLast s).laterCommands = s.laterCommands := by
  simp only [padLast, State.compressBlock_laterCommands]
@[simp] theorem padLast_responses : (padLast s).responses = s.responses := by
  simp only [padLast, State.compressBlock_responses]
@[simp] theorem padLast_earlierResponses : (padLast s).earlierResponses = s.earlierResponses := by
  simp only [padLast, State.compressBlock_earlierResponses]
@[simp] theorem padLast_fill : (padLast s).fill = s.fill := by
  simp only [padLast, State.compressBlock_fill]

end

end Sys2Proof.Machine
end

