-- ==== Sys2Proof/Laws/Update.lean ====
section
/-! SUPPORT. What UPDATE's operations do: the spec lemmas of the absorb algorithm. -/

namespace Sys2Proof.Machine

/-- `compressSlices` writes H only. -/
theorem compressSlices_eq (k : Nat) (data : List Byte) (s : State) (hk : 64 * k ≤ data.length) :
    compressSlices k data s = s.setH (hashBlocks s.h ((List.range k).map (messageBlock data))) := by
  induction k generalizing data s with
  | zero => rfl
  | succ k ih =>
    rw [compressSlices, ih _ _ (by simp; omega)]
    simp only [List.range_succ_eq_map, List.map_cons, List.map_map, hashBlocks_cons, messageBlock_zero,
      messageBlock_comp_succ]
    rfl

/-- `absorbAligned` compresses the blocks of the payload and writes its leftover (R79, R80). -/
theorem absorbAligned_eq (data : List Byte) (s : State) :
    absorbAligned data s =
      (s.setH (hashBlocks s.h (messageBlocks data))).writeBuf 0 (data.drop (64 * (data.length / 64))) := by
  rw [absorbAligned, compressSlices_eq _ _ _ (by omega)]
  rfl

/-- The bytes not yet compressed when a payload arrives: the valid bytes of BUF, then the payload. -/
def pending (data : List Byte) (s : State) : List Byte := s.buf.toList.take s.fill ++ data

theorem length_pending (data : List Byte) (s : State) : (pending data s).length = s.fill + data.length := by
  have := s.fill_lt
  simp [pending]
  omega

/-- The three paths of `absorb` (R77): the payload does not fill the buffer, or fills it, or finds it empty. -/
theorem absorb_cases (data : List Byte) (s : State) :
    (s.fill + data.length < 64 ∧ 0 < s.fill ∧
      absorb data s = (s.countBytes data.length).writeBuf s.fill data) ∨
    (64 ≤ s.fill + data.length ∧ 0 < s.fill ∧
      absorb data s = absorbAligned (data.drop (64 - s.fill))
        (((s.countBytes data.length).writeBuf s.fill (data.take (64 - s.fill))).compressBlock
          (overwrite s.buf s.fill (data.take (64 - s.fill))))) ∨
    (s.fill = 0 ∧ absorb data s = absorbAligned data (s.countBytes data.length)) := by
  have hlt := s.fill_lt
  by_cases h0 : 0 < s.fill
  · by_cases h1 : s.fill + data.length < 64
    · refine .inl ⟨h1, h0, ?_⟩
      have hm : min (64 - s.fill) data.length = data.length := by omega
      simp [absorb, h0, hm, h1]
    · refine .inr (.inl ⟨by omega, h0, ?_⟩)
      have hm : min (64 - s.fill) data.length = 64 - s.fill := by omega
      have h2 : ¬ s.fill + (64 - s.fill) < 64 := by omega
      simp [absorb, h0, hm, h2]
  · exact .inr (.inr ⟨by omega, by simp [absorb, h0]⟩)

/-- `absorb` writes H, BUF and TOTAL_LEN only. -/
theorem absorb_frame (data : List Byte) (s : State) :
    (absorb data s).totalLen = s.totalLen + BitVec.ofNat 64 data.length ∧
    (absorb data s).digestLen = s.digestLen ∧ (absorb data s).phase = s.phase ∧
    (absorb data s).commands = s.commands ∧ (absorb data s).laterCommands = s.laterCommands ∧
    (absorb data s).responses = s.responses ∧ (absorb data s).earlierResponses = s.earlierResponses := by
  obtain ⟨-, -, h⟩ | ⟨-, -, h⟩ | ⟨-, h⟩ := absorb_cases data s <;> rw [h] <;> simp [absorbAligned_eq]

theorem absorb_fill (data : List Byte) (s : State) : (absorb data s).fill = (s.fill + data.length) % 64 := by
  rw [← State.countBytes_fill]
  simp only [State.fill, (absorb_frame data s).1, State.countBytes_totalLen]

/-- Byte i of the pending bytes. -/
theorem getD_pending (data : List Byte) (s : State) (i : Nat) :
    (pending data s).getD i 0 =
      if h : i < s.fill then s.buf[i]'(h.trans s.fill_lt) else data.getD (i - s.fill) 0 := by
  have hlt := s.fill_lt
  have hlen : (s.buf.toList.take s.fill).length = s.fill := by simp; omega
  by_cases h : i < s.fill
  · simp [pending, h, List.getD_eq_getElem?_getD, List.getElem?_append_left (hlen.symm ▸ h : i < _),
      show i < 64 by omega]
  · simp [pending, h, List.getD_eq_getElem?_getD,
      List.getElem?_append_right (hlen.symm ▸ Nat.le_of_not_lt h : _ ≤ i), hlen, -List.length_take]

/-- The filled buffer is the first block of the pending bytes. -/
theorem blockOfBytes_pending {data : List Byte} {s : State} (h : 64 ≤ s.fill + data.length) :
    blockOfBytes (pending data s) = overwrite s.buf s.fill (data.take (64 - s.fill)) := by
  have hlt := s.fill_lt
  refine Vector.ext fun i hi => ?_
  rw [getElem_blockOfBytes, getD_pending, getElem_overwrite]
  have hl : (data.take (64 - s.fill)).length = 64 - s.fill := by simp; omega
  by_cases hf : i < s.fill
  · rw [dif_pos hf, if_neg (by omega)]
  · rw [dif_neg hf, if_pos (by omega)]
    simp [List.getD_eq_getElem?_getD, show i - s.fill < 64 - s.fill by omega]

/-- Without its first block, the pending bytes are the rest of the payload. -/
theorem drop_pending {data : List Byte} {s : State} :
    (pending data s).drop 64 = data.drop (64 - s.fill) := by
  have hlt := s.fill_lt
  have hlen : (s.buf.toList.take s.fill).length = s.fill := by simp; omega
  rw [pending, List.drop_append, hlen, List.drop_eq_nil_of_le (by omega), List.nil_append]

/-- `absorb` compresses the blocks of the pending bytes, in order (R77, R82). -/
theorem absorb_h (data : List Byte) (s : State) :
    (absorb data s).h = hashBlocks s.h (messageBlocks (pending data s)) := by
  have hp := length_pending data s
  obtain ⟨hn, h0, h⟩ | ⟨hn, h0, h⟩ | ⟨h0, h⟩ := absorb_cases data s
  · rw [h, messageBlocks_of_lt (by omega)]
    simp
  · rw [h, absorbAligned_eq, messageBlocks_of_le (m := pending data s) (by omega), blockOfBytes_pending hn, drop_pending]
    simp
  · rw [h, absorbAligned_eq]
    simp [pending, h0]

/-- `absorb` leaves the leftover of the pending bytes below the fill (R80, R82). -/
theorem absorb_buf (data : List Byte) (s : State) (j : Nat) (hj : j < 64)
    (hf : j < (s.fill + data.length) % 64) :
    (absorb data s).buf[j] = (pending data s).getD (64 * ((s.fill + data.length) / 64) + j) 0 := by
  have hlt := s.fill_lt
  obtain ⟨hn, h0, h⟩ | ⟨hn, h0, h⟩ | ⟨h0, h⟩ := absorb_cases data s
  · have hq : (s.fill + data.length) / 64 = 0 := by omega
    simp only [h, hq, State.writeBuf_buf, State.countBytes_buf, getElem_overwrite, getD_pending,
      Nat.mul_zero, Nat.zero_add]
    by_cases hjf : j < s.fill
    · simp [hjf]
    · rw [dif_neg hjf, if_pos (by omega)]
  · simp only [h, absorbAligned_eq, State.writeBuf_buf, State.setH_buf, getElem_overwrite]
    rw [if_pos (by simp only [List.length_drop]; omega), getD_pending, dif_neg (by omega)]
    simp only [List.getD_eq_getElem?_getD, List.getElem?_drop, List.length_drop]
    congr 2
    omega
  · simp only [h, absorbAligned_eq, State.writeBuf_buf, State.setH_buf, getElem_overwrite]
    rw [if_pos (by simp only [List.length_drop]; omega), getD_pending, dif_neg (by omega)]
    simp only [List.getD_eq_getElem?_getD, List.getElem?_drop]
    congr 2
    omega

/-- An empty payload changes no register (R83). -/
theorem absorb_nil (s : State) : absorb [] s = s := by
  have hlt := s.fill_lt
  obtain ⟨-, -, h⟩ | ⟨hn, -, -⟩ | ⟨-, h⟩ := absorb_cases [] s
  · rw [h]
    cases s
    simp [State.writeBuf, State.countBytes, State.setBuf, State.setTotalLen]
  · simp at hn
    omega
  · rw [h, absorbAligned_eq, messageBlocks_of_lt (by simp)]
    cases s
    simp [State.writeBuf, State.countBytes, State.setBuf, State.setTotalLen, State.setH]

/-- The blocks `absorb` passes to Compress are those of the pending bytes (R77, R82). -/
theorem absorbCalls_eq (data : List Byte) (s : State) : absorbCalls data s = messageBlocks (pending data s) := by
  have hl := length_pending data s
  unfold absorbCalls
  split
  · split
    · rw [messageBlocks_of_lt (by omega)]
    · rw [messageBlocks_of_le (m := pending data s) (by omega), drop_pending, blockOfBytes_pending (by omega)]
  · have h0 : s.fill = 0 := by omega
    simp [pending, h0]

theorem pending_append (a b : List Byte) (s : State) : pending (a ++ b) s = pending a s ++ b := by
  simp [pending]

/-- What `absorb` leaves pending is the leftover of what was pending (R80). -/
theorem pending_absorb (a b : List Byte) (s : State) :
    pending b (absorb a s) = (pending a s).drop (64 * ((pending a s).length / 64)) ++ b := by
  rw [pending]
  congr 1
  apply List.ext_getElem
  · simp [length_pending, absorb_fill]
    omega
  · intro i h1 _
    simp only [List.length_take, Vector.length_toList, absorb_fill] at h1
    have hi : 64 * ((pending a s).length / 64) + i < (pending a s).length := by rw [length_pending]; omega
    simp only [List.getElem_take, Vector.getElem_toList, List.getElem_drop]
    rw [absorb_buf a s i (by omega) (by omega), ← length_pending, List.getD_eq_getElem?_getD,
      List.getElem?_eq_getElem hi]
    rfl

end Sys2Proof.Machine
end

