-- ==== Sys2Proof/Laws/Final.lean ====
section
/-! SUPPORT. What FINAL's operations do: the blocks Pad builds and what it leaves alone. -/

namespace Sys2Proof.Machine

/-- The block after marker and zero fill (R86, R87). -/
theorem padZero_padMark_buf (s : State) (i : Nat) (hi : i < 64) :
    (padZero (padMark s)).buf[i] =
      if i < s.fill then s.buf[i] else if i = s.fill then Config.markerByte else 0 := by
  have hlt := s.fill_lt
  simp only [padZero, padMark, State.writeBuf_buf, State.writeBuf_fill, getElem_overwrite, List.length_replicate,
    List.length_singleton]
  obtain h | h | h := Nat.lt_trichotomy i s.fill
  · rw [if_neg (by omega), if_neg (by omega), if_pos h]
  · subst h
    rw [if_neg (by omega), if_pos (by omega), if_neg (by omega), if_pos rfl]
    simp
  · rw [if_pos (by omega), if_neg (by omega), if_neg (by omega), getD_replicate_zero]

/-- The length field's place (R89). -/
theorem getElem_padLength_buf (s : State) (i : Nat) (hi : i < 64) :
    (padLength s).buf[i] = if 56 ≤ i then (be64Bytes (bitLength s)).getD (i - 56) 0 else s.buf[i] := by
  simp only [padLength, State.writeBuf_buf, getElem_overwrite, length_be64Bytes]
  by_cases h : 56 ≤ i
  · rw [if_pos (by omega), if_pos h]
  · rw [if_neg (by omega), if_neg h]

/-- A spill starts an all-zero block (R88). -/
theorem getElem_padSpill_buf (s : State) (i : Nat) (hi : i < 64) : (padSpill s).buf[i] = 0 := by
  simp only [padSpill, State.writeBuf_buf, getElem_overwrite, List.length_replicate]
  rw [if_pos (by omega), getD_replicate_zero]

@[simp] theorem padMark_bitLength (s : State) : bitLength (padMark s) = bitLength s := by rw [bitLength, padMark_totalLen, bitLength]
@[simp] theorem padZero_bitLength (s : State) : bitLength (padZero s) = bitLength s := by rw [bitLength, padZero_totalLen, bitLength]
@[simp] theorem padSpill_bitLength (s : State) : bitLength (padSpill s) = bitLength s := by rw [bitLength, padSpill_totalLen, bitLength]

/-- `pad` writes H and BUF only. -/
theorem pad_frame (s : State) :
    (pad s).totalLen = s.totalLen ∧ (pad s).digestLen = s.digestLen ∧ (pad s).phase = s.phase ∧
    (pad s).commands = s.commands ∧ (pad s).laterCommands = s.laterCommands ∧
    (pad s).responses = s.responses ∧ (pad s).earlierResponses = s.earlierResponses := by
  by_cases h : Config.spillFill ≤ s.fill <;> simp [pad, h]

/-- `pad` compresses the blocks `padCalls` lists, in order. -/
theorem pad_h (s : State) : (pad s).h = hashBlocks s.h (padCalls s) := by
  by_cases h : Config.spillFill ≤ s.fill <;>
    simp [pad, padCalls, h]

/-- The padding of the bytes in BUF below the fill. -/
def paddedTail (s : State) : List Byte :=
  s.buf.toList.take s.fill ++
    Config.markerByte :: (List.replicate (padZeros s.fill) 0 ++ be64Bytes (bitLength s))

theorem length_paddedTail (s : State) : (paddedTail s).length = if s.fill < 56 then 64 else 128 := by
  have hlt := s.fill_lt
  simp only [paddedTail, List.length_append, List.length_take, Vector.length_toList, List.length_cons,
    List.length_replicate, length_be64Bytes, padZeros]
  split <;> omega

/-- Byte i of the padded tail. -/
theorem getD_paddedTail (s : State) (i : Nat) (h : i < (paddedTail s).length) :
    (paddedTail s).getD i 0 =
      if hi : i < s.fill then s.buf[i]'(hi.trans s.fill_lt) else if i = s.fill then Config.markerByte
      else if i < (paddedTail s).length - 8 then 0
      else (be64Bytes (bitLength s)).getD (i - ((paddedTail s).length - 8)) 0 := by
  have hlt := s.fill_lt
  have hlen : (s.buf.toList.take s.fill).length = s.fill := by simp; omega
  have htail : (paddedTail s).length = s.fill + 1 + padZeros s.fill + 8 := by
    simp only [paddedTail, List.length_append, hlen, List.length_cons, List.length_replicate, length_be64Bytes]
    omega
  simp only [htail] at h ⊢
  simp only [paddedTail, List.getD_eq_getElem?_getD]
  by_cases h1 : i < s.fill
  · simp [h1, List.getElem?_append_left (hlen.symm ▸ h1 : i < _), show i < 64 by omega]
  · rw [List.getElem?_append_right (by omega), hlen, dif_neg h1]
    obtain ⟨d, rfl⟩ : ∃ d, i = s.fill + d := ⟨i - s.fill, by omega⟩
    rw [Nat.add_sub_cancel_left]
    cases d with
    | zero => simp
    | succ d =>
      rw [List.getElem?_cons_succ, if_neg (by omega)]
      by_cases h2 : d < padZeros s.fill
      · rw [if_pos (by omega), List.getElem?_append_left (by simpa using h2)]
        simp [h2]
      · rw [if_neg (by omega), List.getElem?_append_right (by simp; omega), List.length_replicate]
        congr 2
        omega

/-- The blocks Pad compresses are those of the padded tail (R94). -/
theorem padCalls_eq (s : State) : padCalls s = messageBlocks (paddedTail s) := by
  have hlt := s.fill_lt
  have hl := length_paddedTail s
  by_cases h : Config.spillFill ≤ s.fill
  · have h' : ¬ s.fill < 56 := by simpa [Config.spillFill] using h
    rw [if_neg h'] at hl
    simp only [padCalls, if_pos h, messageBlocks, hl]
    have h1 : (padZero (padMark s)).buf = messageBlock (paddedTail s) 0 := by
      refine Vector.ext fun i hi => ?_
      rw [padZero_padMark_buf, getElem_messageBlock, getD_paddedTail _ _ (by omega)]
      simp only [hl, Nat.mul_zero, Nat.zero_add, show i < 128 - 8 by omega, if_true]
      split <;> simp_all
    have h2 : (padLength (padSpill (padZero (padMark s)))).buf = messageBlock (paddedTail s) 1 := by
      refine Vector.ext fun i hi => ?_
      rw [getElem_padLength_buf, getElem_messageBlock, getD_paddedTail _ _ (by omega), dif_neg (by omega),
        hl, getElem_padSpill_buf, padSpill_bitLength, padZero_bitLength, padMark_bitLength]
      by_cases h56 : 56 ≤ i
      · rw [if_pos h56, if_neg (by omega), if_neg (by omega)]
        rw [show 64 * 1 + i - (128 - 8) = i - 56 by omega]
      · rw [if_neg h56, if_neg (by omega), if_pos (by omega)]
    rw [h1, h2]
    rfl
  · have h' : s.fill < 56 := by simpa [Config.spillFill] using h
    rw [if_pos h'] at hl
    simp only [padCalls, if_neg h, messageBlocks, hl]
    have h1 : (padLength (padZero (padMark s))).buf = messageBlock (paddedTail s) 0 := by
      refine Vector.ext fun i hi => ?_
      rw [getElem_padLength_buf, getElem_messageBlock, getD_paddedTail _ _ (by omega), padZero_padMark_buf, hl,
        padZero_bitLength, padMark_bitLength, Nat.mul_zero, Nat.zero_add]
      by_cases h56 : 56 ≤ i
      · rw [if_pos h56, dif_neg (by omega), if_neg (by omega), if_neg (by omega)]
      · simp only [h56, if_false, show i < 64 - 8 by omega, if_true]
        split <;> simp_all
    rw [h1]
    rfl

/-- The bit length as a number (R89). -/
theorem bitLength_toNat (s : State) : (bitLength s).toNat = s.totalLen.toNat * 8 % 2 ^ 64 := by
  simp [bitLength, BitVec.toNat_mul]

/-- The serialisation of H, word by word (R91). -/
theorem hashBytes_eq (h : HashState) :
    hashBytes h = be32Bytes h[0] ++ be32Bytes h[1] ++ be32Bytes h[2] ++ be32Bytes h[3] ++
      be32Bytes h[4] ++ be32Bytes h[5] ++ be32Bytes h[6] ++ be32Bytes h[7] := by
  have hl : h.toList = [h[0], h[1], h[2], h[3], h[4], h[5], h[6], h[7]] := by
    apply List.ext_getElem
    · simp
    · intro i h1 _
      simp only [Vector.length_toList] at h1
      interval_cases i <;> simp
  rw [hashBytes, hl]
  simp

@[simp] theorem length_hashBytes (h : HashState) : (hashBytes h).length = 32 := by
  rw [hashBytes_eq]
  simp

/-- `finish` moves PHASE and emits the response; it writes nothing else (R85, R92). -/
theorem finish_frame (s : State) :
    (finish s).phase = .finalized ∧ (finish s).responses = s.responses ++ (0x00 :: digest s) ∧
    (finish s).h = s.h ∧ (finish s).buf = s.buf ∧ (finish s).totalLen = s.totalLen ∧
    (finish s).digestLen = s.digestLen ∧ (finish s).commands = s.commands ∧
    (finish s).laterCommands = s.laterCommands ∧ (finish s).earlierResponses = s.earlierResponses := by
  simp [finish, Status.code]

end Sys2Proof.Machine
end

