-- ==== Sys2Proof/Laws/PerInstr.lean ====
section
/-! SUPPORT. Statements about every command as syntax, one lemma per constructor. -/

namespace Sys2Proof.Laws

open Sys2Proof.Machine

/-- A command's length in bytes: its 4-byte header and its payload (R44, R52). -/
def EncodedLength.Statement (i : Instr) : Prop := (encode i).length = 4 + (payload i).length

theorem EncodedLength.init (variant : BitVec 24) : EncodedLength.Statement (.init variant) := by
  simp [EncodedLength.Statement, encode]

theorem EncodedLength.update (data : List Byte) : EncodedLength.Statement (.update data) := by
  simp [EncodedLength.Statement, encode]

theorem EncodedLength.final : EncodedLength.Statement .final := by
  simp [EncodedLength.Statement, encode]

/-- What the header of a command decodes to (R47, R48, R49). -/
def expectedHeader : Instr → Header
  | .init variant => .init variant
  | .update data => .update (BitVec.ofNat 24 data.length)
  | .final => .final

/-- The header of a command decodes to that command's kind and argument (R46, R51). -/
def HeaderDecodes.Statement (i : Instr) : Prop := decodeHeader (encodeHeader i) = expectedHeader i

theorem HeaderDecodes.init (variant : BitVec 24) : HeaderDecodes.Statement (.init variant) := by
  simp [HeaderDecodes.Statement, decodeHeader, encodeHeader, expectedHeader, headerOpc_append, headerArg_append]

theorem HeaderDecodes.update (data : List Byte) : HeaderDecodes.Statement (.update data) := by
  simp [HeaderDecodes.Statement, decodeHeader, encodeHeader, expectedHeader, headerOpc_append, headerArg_append]

theorem HeaderDecodes.final : HeaderDecodes.Statement .final := by
  unfold HeaderDecodes.Statement
  decide

end Sys2Proof.Laws
end

