-- ==== Sys2Proof/Laws/Step.lean ====
section
/-! SUPPORT. What a command and a step can do, said once. -/

namespace Sys2Proof.Machine

/-- INIT's next state (R73). -/
theorem exec_init (variant : BitVec 24) (s : State) :
    exec (.init variant) s =
      .next ((startMessage (selectVariant (variantOperand variant)) s).emit [Status.ok.code]) := rfl

/-- The three answers of a command that needs a message in progress (R76, R84, R98, R100). -/
theorem whenActive_cases (k : State → State) (s : State) :
    (s.phase = .active ∧ whenActive k s = .next (k s)) ∨
    (s.phase = .uninit ∧ whenActive k s = .next (s.emit [Status.notInit.code])) ∨
    (s.phase = .finalized ∧ whenActive k s = .next (s.emit [Status.finalized.code])) := by
  cases h : s.phase <;> simp [whenActive, raiseError, h]

/-- UPDATE's next state while a message is in progress (R76). -/
theorem exec_update_active (data : List Byte) {s : State} (h : s.phase = .active) :
    exec (.update data) s = .next ((absorb data s).emit [Status.ok.code]) := by
  simp only [exec, execUpdate, whenActive, h]

/-- FINAL's next state while a message is in progress (R84). -/
theorem exec_final_active {s : State} (h : s.phase = .active) :
    exec .final s = .next (finish (pad s)) := by
  simp only [exec, execFinal, whenActive, h]

/-- What any command can do: start a message, absorb, finalize, or be rejected with nothing but a status. -/
theorem exec_cases {i : Instr} {s t : State} (h : exec i s = .next t) :
    (∃ variant, i = .init variant ∧
      t = (startMessage (selectVariant (variantOperand variant)) s).emit [Status.ok.code]) ∨
    (∃ data, i = .update data ∧ s.phase = .active ∧ t = (absorb data s).emit [Status.ok.code]) ∨
    (i = .final ∧ s.phase = .active ∧ t = finish (pad s)) ∨
    ((∀ variant, i ≠ .init variant) ∧ s.phase = .uninit ∧ t = s.emit [Status.notInit.code]) ∨
    ((∀ variant, i ≠ .init variant) ∧ s.phase = .finalized ∧ t = s.emit [Status.finalized.code]) := by
  cases i with
  | init variant => exact .inl ⟨variant, rfl, by rw [exec_init] at h; injection h with h; exact h.symm⟩
  | update data =>
    obtain ⟨hp, hk⟩ | ⟨hp, hk⟩ | ⟨hp, hk⟩ := whenActive_cases (fun s => (absorb data s).emit [Status.ok.code]) s <;>
      rw [exec, execUpdate, hk] at h <;> injection h with h <;> simp [hp, ← h]
  | final =>
    obtain ⟨hp, hk⟩ | ⟨hp, hk⟩ | ⟨hp, hk⟩ := whenActive_cases (fun s => finish (pad s)) s <;>
      rw [exec, execFinal, hk] at h <;> injection h with h <;> simp [hp, ← h]

/-- What the engine does with no whole command left. -/
theorem awaitHost_cases (stuck : Fault) (s : State) :
    (∃ next later, s.laterCommands = next :: later ∧ awaitHost stuck s = .next (hardwareReset next later s)) ∨
    (s.laterCommands = [] ∧ s.commands = [] ∧ awaitHost stuck s = .next s) ∨
    (s.laterCommands = [] ∧ s.commands ≠ [] ∧ awaitHost stuck s = .fault stuck) := by
  rcases hl : s.laterCommands with _ | ⟨next, later⟩
  · rcases hc : s.commands with _ | ⟨b, bs⟩ <;> simp [awaitHost, hl, hc]
  · simp [awaitHost, hl]

/-- What a step that answers a next state has done. -/
theorem step_cases {s t : State} (h : step s = .next t) :
    (∃ i rest, decode s.commands = .command i rest ∧ exec i (s.setCommands rest) = .next t) ∨
    (∃ why rest, decode s.commands = .reserved why rest ∧
      t = (s.setCommands rest).emit [Status.illegalCmd.code]) ∨
    (∃ next later, s.laterCommands = next :: later ∧ t = hardwareReset next later s) ∨
    (s.laterCommands = [] ∧ s.commands = [] ∧ t = s) := by
  have wait (stuck : Fault) (h : awaitHost stuck s = .next t) :
      (∃ next later, s.laterCommands = next :: later ∧ t = hardwareReset next later s) ∨
      (s.laterCommands = [] ∧ s.commands = [] ∧ t = s) := by
    obtain ⟨next, later, hl, hk⟩ | ⟨hl, hc, hk⟩ | ⟨hl, hc, hk⟩ := awaitHost_cases stuck s
    · rw [hk] at h; injection h with h
      exact .inl ⟨next, later, hl, h.symm⟩
    · rw [hk] at h; injection h with h
      exact .inr ⟨hl, hc, h.symm⟩
    · rw [hk] at h; cases h
  rw [step] at h
  split at h
  · exact .inl ⟨_, _, ‹_›, h⟩
  · injection h with h
    exact .inr (.inl ⟨_, _, ‹_›, h.symm⟩)
  · exact .inr (.inr (wait _ h))
  · exact .inr (.inr (wait _ h))

/-- A command answers a next state in every state (R95). -/
theorem exec_total (i : Instr) (s : State) : ∃ t, exec i s = .next t := by
  cases i with
  | init variant => exact ⟨_, exec_init variant s⟩
  | update data =>
    obtain ⟨-, h⟩ | ⟨-, h⟩ | ⟨-, h⟩ := whenActive_cases (fun s => (absorb data s).emit [Status.ok.code]) s <;>
      exact ⟨_, h⟩
  | final =>
    obtain ⟨-, h⟩ | ⟨-, h⟩ | ⟨-, h⟩ := whenActive_cases (fun s => finish (pad s)) s <;> exact ⟨_, h⟩

/-- One more step of a run. -/
theorem run_succ (k : Nat) (s : State) :
    Host.Core.run core (k + 1) s =
      match step s with
      | .next t => Host.Core.run core k t
      | .fault r => .fault r
      | .refused r => .refused r := by
  refine (Host.Core.run.eq_2 core s k).trans ?_
  cases h : step s <;> rw [show core.step s = _ from h]

end Sys2Proof.Machine
end

