-- ==== Sys2Proof/Tests/Slice0.lean ====
section
/-! SUPPORT. The author's own tests, and for every statement with hypotheses a witness that meets them.
Expected values come from the spec's text and its 95_test_vectors.md; the sections are named. -/

open Sys2Proof Sys2Proof.Machine Sys2Proof.Assembler

namespace Sys2Proof.Tests

/-- n bytes of 0x61, the spec's 'a' messages. -/
def letters (n : Nat) : List Byte := List.replicate n 0x61

/-- "abc". -/
def abc : List Byte := [0x61, 0x62, 0x63]

/-- A SHA-256 message in progress that holds these fewer than 64 bytes, after `blocks` whole blocks. -/
def inProgress (h : HashState) (blocks : Nat) (bs : List Byte) : State :=
  { State.reset with
    h := h, digestLen := 32, phase := .active
    totalLen := BitVec.ofNat 64 (64 * blocks + bs.length), buf := overwrite State.reset.buf 0 bs }

/-- The engine after reset, with these bytes delivered. -/
def delivered (bs : List Byte) : State := { State.reset with commands := bs }

/-- Some finalized engine. -/
def finalizedEngine : State := { State.reset with phase := .finalized, digestLen := 28 }

/-- A property of the state that an outcome holds; false of a fault or a refusal. -/
def answers (o : Host.Outcome State Fault Refusal) (p : State → Bool) : Bool :=
  match o with
  | .next t => p t
  | .fault _ => false
  | .refused _ => false

/-! ## WellFormed -/

/-- Ill-formed: one payload byte more than LEN can count (R48). -/
theorem test_wf_refuses_a_payload_of_2_to_the_24 : Instr.wf (.update (List.replicate 16777216 0)) = false := by
  simp only [Instr.wf, List.length_replicate]
  decide

/-- The longest payload is well formed (R48). -/
theorem test_wf_accepts_the_longest_payload : Instr.wf (.update (List.replicate 16777215 0)) = true := by
  simp only [Instr.wf, List.length_replicate]
  decide

theorem test_wf_init_and_final : Instr.wf (.init 0xFFFFFF) = true ∧ Instr.wf .final = true := by decide

/-! ## Decoding (words written out from 30_encoding.md R45 to R49 and opcode_table.json) -/

/-- 00000001 vvvvvvvv vvvvvvvv vvvvvvvv with v = 224. -/
theorem test_decode_init_bit_by_bit :
    decode [0b00000001, 0b00000000, 0b00000000, 0b11100000] = .command (.init 224) [] := by decide

/-- Every bit of VARIANT, one end at a time. -/
theorem test_decode_init_ends :
    decode [0b00000001, 0b10000000, 0b00000000, 0b00000000] = .command (.init 0x800000) [] ∧
    decode [0b00000001, 0b00000000, 0b00000000, 0b00000001] = .command (.init 1) [] := by decide

/-- 00000010 llllllll llllllll llllllll with l = 3, its payload, and the next command's first byte. -/
theorem test_decode_update_bit_by_bit :
    decode ([0b00000010, 0b00000000, 0b00000000, 0b00000011] ++ abc ++ [0b00000011]) =
      .command (.update abc) [0b00000011] := by decide

/-- LEN's middle byte counts 256s. -/
theorem test_decode_update_of_256_bytes :
    decode ([0b00000010, 0b00000000, 0b00000001, 0b00000000] ++ letters 256) =
      .command (.update (letters 256)) [] := by decide +kernel

/-- 00000011 and 24 zero bits. -/
theorem test_decode_final_bit_by_bit :
    decode [0b00000011, 0b00000000, 0b00000000, 0b00000000] = .command .final [] := by decide

/-- The edges of the reserved headers (R50). -/
theorem test_decode_reserved :
    decode [0x00, 0xFF, 0xFF, 0xFF] = .reserved (.opcode 0x00) [] ∧
    decode [0x04, 0x00, 0x00, 0x00] = .reserved (.opcode 0x04) [] ∧
    decode [0xFF, 0x00, 0x00, 0x00, 0x01] = .reserved (.opcode 0xFF) [0x01] ∧
    decode [0x03, 0x00, 0x00, 0x01] = .reserved (.finalArgument 1) [] := by decide

/-- Fewer bytes than a header, and fewer than LEN payload bytes, are no command (R44). -/
theorem test_decode_partial :
    decode [0x01, 0x00, 0x01] = .shortHeader ∧ decode [0x02, 0x00, 0x00, 0x02, 0x61] = .shortPayload 2 := by decide

/-- The encodings of 95_test_vectors.md P1. -/
theorem test_encode_program_P1 :
    encodeAll [.init 256, .update abc, .final] =
      [0x01, 0x00, 0x01, 0x00, 0x02, 0x00, 0x00, 0x03, 0x61, 0x62, 0x63, 0x03, 0x00, 0x00, 0x00] := by decide

/-! ## The table's words and the first step after reset -/

theorem test_decodeTableWord :
    decodeTableWord 32 0x010000E0 = some (.init 224) ∧ decodeTableWord 32 0x02000000 = some (.update []) ∧
    decodeTableWord 32 0x03000000 = some .final ∧ decodeTableWord 32 0x03000001 = none ∧
    decodeTableWord 56 0x63626102000003 = some (.update abc) ∧
    decodeTableWord 32 0x02000002 = some (.update [0, 0]) := by decide

theorem test_withFetchWord_init :
    answers (step (State.reset.withFetchWord 32 0x01000100))
      (fun t => t.phase = .active ∧ t.h = iv256 ∧ t.responses = [0x00] ∧ t.commands = []) = true := by decide

theorem test_withFetchWord_final_before_init :
    answers (step (State.reset.withFetchWord 32 0x03000000))
      (fun t => t.phase = .uninit ∧ t.responses = [0x02] ∧ t.commands = []) = true := by decide

/-! ## The compression function -/

/-- 95_test_vectors.md section 2, the rows 80000000 and 6a09e667 and the rotation column. -/
theorem test_sigmas :
    bigSigma0 0x80000000 = 0x20040200 ∧ bigSigma1 0x80000000 = 0x02100040 ∧
    smallSigma0 0x80000000 = 0x11002000 ∧ smallSigma1 0x80000000 = 0x00205000 ∧
    bigSigma0 0x6a09e667 = 0xce20b47e ∧ bigSigma1 0x6a09e667 = 0x55b65510 ∧
    smallSigma0 0x6a09e667 = 0xba0cf582 ∧ smallSigma1 0x6a09e667 = 0xcfe5da3c ∧
    rotr 0x12345678 7 = 0xf02468ac := by decide

/-- 95_test_vectors.md section 2, the last two rows of the second table. -/
theorem test_choose_and_majority :
    ch 0x510e527f 0x9b05688c 0x1f83d9ab = 0x1f85c98c ∧ maj 0x510e527f 0x9b05688c 0x1f83d9ab = 0x1b0758af ∧
    ch 0x6a09e667 0xbb67ae85 0x3c6ef372 = 0x3e67b715 ∧ maj 0x6a09e667 0xbb67ae85 0x3c6ef372 = 0x3a6fe667 := by decide

/-- 40_compression.md R64's table: the first and last row of each of its four parts. -/
theorem test_round_constants :
    (kRom[0] = 0x428a2f98 ∧ kRom[15] = 0xc19bf174) ∧ (kRom[16] = 0xe49b69c1 ∧ kRom[31] = 0x14292967) ∧
    (kRom[32] = 0x27b70a85 ∧ kRom[47] = 0x106aa070) ∧ (kRom[48] = 0x19a4c116 ∧ kRom[63] = 0xc67178f2) := by
  decide +kernel

/-- 40_compression.md R67: round 0 of the "abc" block. -/
theorem test_round_zero :
    compressRound (Working.load iv256) (roundConstant 0) 0x61626380 =
      ⟨0x5d6aebcd, 0x6a09e667, 0xbb67ae85, 0x3c6ef372, 0xfa2a4622, 0x510e527f, 0x9b05688c, 0x1f83d9ab⟩ := by
  decide +kernel

/-- 95_test_vectors.md section 4, from IV224 and from IV256 over 64 bytes of 0x61. -/
theorem test_compress :
    compress iv224 (Vector.replicate 64 0) =
      #v[0xdb04d220, 0xf639ab8e, 0x8e6b506d, 0xc54481da, 0x63a5820f, 0x1294a139, 0x8edcef0e, 0x17a572bc] ∧
    compress iv256 (Vector.replicate 64 0x61) =
      #v[0xdf5bb81c, 0xe81e0626, 0xfb45a894, 0x4fd40f31, 0xb25e6816, 0xd6d499c1, 0xab904929, 0x00635e66] := by
  decide +kernel

/-! ## One step of each command -/

/-- 41_init.md R73: `init 224` abandons the message in progress. -/
theorem test_init_224_in_progress :
    answers (exec (.init 224) (inProgress (Vector.replicate 8 7) 5 abc))
      (fun t => t.h = iv224 ∧ t.digestLen = 28 ∧ t.totalLen = 0 ∧ t.phase = .active ∧ t.responses = [0x00]) = true := by
  decide

/-- 41_init.md R74: 0x0001E0 is not 224, though its low byte is. -/
theorem test_init_0001E0_is_sha256 :
    answers (exec (.init 0x0001E0) finalizedEngine) (fun t => t.h = iv256 ∧ t.digestLen = 32) = true := by decide

/-- 42_update.md R76's example. -/
theorem test_update_abc :
    answers (exec (.update abc) (inProgress iv256 0 []))
      (fun t => t.h = iv256 ∧ t.totalLen = 3 ∧ t.fill = 3 ∧ t.buf[0] = 0x61 ∧ t.buf[1] = 0x62 ∧ t.buf[2] = 0x63 ∧
        t.responses = [0x00]) = true := by decide +kernel

/-- 95_test_vectors.md P4 command 3: 70 bytes onto 60 take all the steps of R77. -/
theorem test_update_over_block_boundaries :
    answers (exec (.update (letters 70)) (inProgress iv256 0 (letters 60)))
      (fun t => t.h = #v[0xeac1afff, 0x7e2fe374, 0x5215a157, 0x6aea3c45, 0x1df0539e, 0x97f91d40, 0xf96170a7, 0x5b4dc721] ∧
        t.totalLen = 130 ∧ t.fill = 2) = true := by decide +kernel

/-- 43_finalize.md R84's example: SHA-256 of "abc". -/
theorem test_final_abc :
    answers (exec .final (inProgress iv256 0 abc))
      (fun t => t.phase = .finalized ∧ t.responses =
        [0x00, 0xba, 0x78, 0x16, 0xbf, 0x8f, 0x01, 0xcf, 0xea, 0x41, 0x41, 0x40, 0xde, 0x5d, 0xae, 0x22, 0x23,
         0xb0, 0x03, 0x61, 0xa3, 0x96, 0x17, 0x7a, 0x9c, 0xb4, 0x10, 0xff, 0x61, 0xf2, 0x00, 0x15, 0xad]) = true := by
  decide +kernel

/-- 95_test_vectors.md P3: 60 bytes spill into a second block. -/
theorem test_final_with_spill :
    answers (exec .final (inProgress iv256 0 (letters 60)))
      (fun t => t.h = #v[0x11ee3912, 0x11c62564, 0x60b6ed37, 0x5957fadd, 0x8061cafb, 0xb31daf96, 0x7db875ae, 0xbd5aaad4]) =
      true := by decide +kernel

/-- 95_test_vectors.md P2: SHA-224 of the empty message has 28 bytes. -/
theorem test_digest_of_sha224 :
    digest { State.reset with
      digestLen := 28
      h := #v[0xd14a028c, 0x2a3a2bc9, 0x476102bb, 0x288234c4, 0x15a2b01f, 0x828ea62a, 0xc5b3e42f, 0xbdd387cb] } =
      [0xd1, 0x4a, 0x02, 0x8c, 0x2a, 0x3a, 0x2b, 0xc9, 0x47, 0x61, 0x02, 0xbb, 0x28, 0x82, 0x34, 0xc4,
       0x15, 0xa2, 0xb0, 0x1f, 0x82, 0x8e, 0xa6, 0x2a, 0xc5, 0xb3, 0xe4, 0x2f] := by decide

/-- 95_test_vectors.md section 5: the bit length around its wrap. -/
theorem test_bit_length :
    bitLength { State.reset with totalLen := 0x82 } = 0x410 ∧
    bitLength { State.reset with totalLen := 0x2000000000000000 } = 0 ∧
    bitLength { State.reset with totalLen := 0xffffffffffffffff } = 0xfffffffffffffff8 := by decide

/-- 95_test_vectors.md section 7: one byte at TOTAL_LEN = 2^64 - 1 wraps the counter. -/
theorem test_counter_wraps : ({ State.reset with totalLen := 0xffffffffffffffff } : State).countBytes 1 = State.reset := by
  decide

/-- 60_exceptions.md R103's example: a reserved header in FINALIZED answers 01. -/
theorem test_reserved_header_when_finalized :
    answers (step { finalizedEngine with commands := [0x03, 0x00, 0x00, 0x01, 0x02] })
      (fun t => t.responses = [0x01] ∧ t.commands = [0x02] ∧ t.phase = .finalized) = true := by decide

/-- 60_exceptions.md R99: a rejected UPDATE still takes its payload. -/
theorem test_rejected_update_takes_its_payload :
    answers (step (delivered [0x02, 0x00, 0x00, 0x01, 0x78, 0x03]))
      (fun t => t.responses = [0x02] ∧ t.commands = [0x03] ∧ t.phase = .uninit) = true := by decide

/-- 70_reset_and_hazards.md R110: a reset drops the partly delivered command and keeps what was observed. -/
theorem test_reset_drops_a_partial_command :
    answers (step { finalizedEngine with commands := [0x02, 0x00], laterCommands := [[0x01]], responses := [0x00] })
      (fun t => t.phase = .uninit ∧ t.commands = [0x01] ∧ t.responses = [] ∧ t.observation = [0x00]) = true := by decide

/-- 70_reset_and_hazards.md R113: a short payload hangs. -/
theorem test_short_payload_hangs :
    step (delivered [0x02, 0x00, 0x00, 0x02, 0x61]) = .fault .waitsForPayload := by rfl

/-! ## Assembler (30_encoding.md R55, R56) -/

/-- R55's example. -/
theorem test_assemble_update_abc :
    assemble ["update \"abc\"".toList] = some [0x02, 0x00, 0x00, 0x03, 0x61, 0x62, 0x63] := by decide

/-- Hex and decimal numbers, a raw word, every kind of byte item, and a comment. -/
theorem test_assemble_forms :
    parseLine "init 0x100 ; SHA-256".toList = some (.init 256) ∧ parseLine ".word 0x03000001".toList = some (.word 0x03000001) ∧
    parseLine "update x'00fF' ++ rep(0x61, 2) ++ \"\\x7f\\\\\"".toList = some (.update [0x00, 0xff, 0x61, 0x61, 0x7f, 0x5c]) ∧
    parseLine "hash224 \"\"".toList = some (.hash224 []) ∧ parseLine "init 224 final".toList = none := by decide

/-- R55: a number that does not fit its field has no encoding. -/
theorem test_assemble_refuses :
    assembleLine (.init 16777216) = none ∧ assembleLine (.word 4294967296) = none := by decide

/-! ## Witnesses: a concrete state and operands that meet the hypotheses of each statement that has some -/

theorem witness_DecodeEncodeRoundTrip :
    Instr.wf (.init 0xFFFFFF) = true ∧ Instr.wf (.update []) = true ∧
    Instr.wf (.update (List.replicate 16777215 0)) = true ∧ Instr.wf .final = true :=
  ⟨by decide, by decide, test_wf_accepts_the_longest_payload, by decide⟩

theorem witness_DecodedBytesAreTheEncoding :
    decode [0x02, 0x00, 0x00, 0x01, 0x61, 0x62] = .command (.update [0x61]) [0x62] ∧
    decode [0x01, 0xFF, 0xFF, 0xFF] = .command (.init 0xFFFFFF) [] ∧
    decode [0x03, 0x00, 0x00, 0x00] = .command .final [] := by decide

/-- Each clause at both ends of its argument, and reserved headers beside every command's. -/
theorem witness_HeaderDecodesByMatchAndMask :
    (∀ hdr ∈ [(0x01000000 : Word), 0x01FFFFFF], hdr &&& 0xFF000000 = 0x01000000) ∧
    (∀ hdr ∈ [(0x02000000 : Word), 0x02FFFFFF], hdr &&& 0xFF000000 = 0x02000000) ∧
    ((0x03000000 : Word) &&& 0xFFFFFFFF = 0x03000000) ∧
    (∀ hdr ∈ [(0x00000000 : Word), 0x00FFFFFF, 0x03000001, 0x03FFFFFF, 0x04000000, 0xFFFFFFFF],
      hdr &&& 0xFF000000 ≠ 0x01000000 ∧ hdr &&& 0xFF000000 ≠ 0x02000000 ∧ hdr &&& 0xFFFFFFFF ≠ 0x03000000) := by
  simp only [List.mem_cons, List.not_mem_nil, or_false]
  refine ⟨?_, ?_, by decide, ?_⟩
  · rintro hdr (rfl | rfl) <;> decide
  · rintro hdr (rfl | rfl) <;> decide
  · rintro hdr (rfl | rfl | rfl | rfl | rfl | rfl) <;> decide

theorem witness_LaterBytesDoNotChangeTheFirstCommand :
    decode [0x02, 0x00, 0x00, 0x00] = .command (.update []) [] ∧
    decode [0x03, 0x00, 0x00, 0x01, 0x02] = .reserved (.finalArgument 1) [0x02] := by decide

theorem witness_ConversionsAreBigEndian : 0 < 4 ∧ 3 < 4 ∧ 0 < 8 ∧ 7 < 8 := by decide

theorem witness_ChooseAndMajorityBitByBit : 0 < 32 ∧ 31 < 32 := by decide

theorem witness_SigmaBitsAreRotatedAndShifted : 0 < 32 ∧ 28 < 32 ∧ 29 < 32 ∧ 31 < 32 := by decide

theorem witness_RoundConstantsAreCubeRootDigits : 0 < 64 ∧ 63 < 64 := by decide

theorem witness_ScheduleFollowsTheRecurrence : 0 < 16 ∧ 15 < 16 ∧ (16 ≤ 16 ∧ 16 < 64) ∧ (16 ≤ 63 ∧ 63 < 64) := by decide

/-- The zero block from the zero state, with the words and variables the definitions give. -/
theorem witness_CompressIsSixtyFourRoundsAndFeedForward :
    ∃ (s : HashState) (blk : Block) (w : Nat → Word) (v : Nat → Working),
      (∀ (t : Nat) (_ : t < 16), w t = be32 blk[4 * t] blk[4 * t + 1] blk[4 * t + 2] blk[4 * t + 3]) ∧
      (∀ n : Nat, 16 ≤ n → n < 64 →
        w n = smallSigma1 (w (n - 2)) + w (n - 7) + smallSigma0 (w (n - 15)) + w (n - 16)) ∧
      v 0 = ⟨s[0], s[1], s[2], s[3], s[4], s[5], s[6], s[7]⟩ ∧
      (∀ (r : Nat) (_ : r < 64), ∀ t1 t2 : Word,
        t1 = (v r).h + bigSigma1 (v r).e + ch (v r).e (v r).f (v r).g + kRom[r] + w r →
        t2 = bigSigma0 (v r).a + maj (v r).a (v r).b (v r).c →
        v (r + 1) = ⟨t1 + t2, (v r).a, (v r).b, (v r).c, (v r).d + t1, (v r).e, (v r).f, (v r).g⟩) := by
  refine ⟨Vector.replicate 8 0, Vector.replicate 64 0, fun _ => 0,
    fun r => workingAfter (Working.load (Vector.replicate 8 0)) [] r, by decide, ?_, by decide, ?_⟩
  · intro n _ _
    show (0 : Word) = smallSigma1 0 + 0 + smallSigma0 0 + 0
    decide
  · rintro r hr t1 t2 rfl rfl
    have hk : kRom[r] = roundConstant r := by simp [kRom]
    simp [workingAfter, compressRound, hk]

theorem witness_CircularScheduleCannotBeToldApart : 0 < 64 ∧ 16 < 64 ∧ 63 < 64 := by decide

/-- Both clauses: 224, and values on either side of it and with its low byte. -/
theorem witness_InitStartsAMessage :
    (0x0000E0 : BitVec 24) = 224 ∧ (223 : BitVec 24) ≠ 224 ∧ (225 : BitVec 24) ≠ 224 ∧ (0x0001E0 : BitVec 24) ≠ 224 ∧
    (0 : BitVec 24) ≠ 224 ∧ (256 : BitVec 24) ≠ 224 := by decide

theorem witness_InitChangesNothingElse : ∃ t, exec (.init 0) (inProgress iv224 1 abc) = .next t := ⟨_, rfl⟩

theorem witness_SecondInitOnlyAnswers : ∃ t, exec (.init 224) (inProgress iv256 1 abc) = .next t := ⟨_, rfl⟩

/-- The three paths of R77: an empty buffer, a payload that does not fill it, one that does. -/
theorem witness_UpdateCompressesBlocksAndKeepsLeftover :
    (inProgress iv256 1 []).phase = .active ∧ (inProgress iv256 1 []).fill = 0 ∧
    (inProgress iv256 0 abc).phase = .active ∧ (inProgress iv256 0 abc).fill = 3 ∧
    (inProgress iv256 0 (letters 63)).phase = .active ∧ (inProgress iv256 0 (letters 63)).fill = 63 := by decide +kernel

theorem witness_UpdateCountsBytesModulo :
    ∃ t, (inProgress iv256 0 (letters 63)).phase = .active ∧
      exec (.update [0x61]) (inProgress iv256 0 (letters 63)) = .next t := ⟨_, rfl, rfl⟩

theorem witness_UpdateChangesNothingElse : (inProgress iv256 0 abc).phase = .active := rfl

/-- The longest payload that does not fill the buffer, with a valid byte below it and a byte of it. -/
theorem witness_ShortUpdateOnlyExtendsTheBuffer :
    ∃ t, (inProgress iv256 0 abc).phase = .active ∧ (inProgress iv256 0 abc).fill + (letters 60).length < 64 ∧
      exec (.update (letters 60)) (inProgress iv256 0 abc) = .next t ∧
      2 < (inProgress iv256 0 abc).fill ∧ (inProgress iv256 0 abc).fill + 59 < 64 ∧ 59 < (letters 60).length :=
  ⟨_, rfl, by decide, rfl, by decide⟩

theorem witness_EmptyUpdateOnlyAnswers : (inProgress iv256 0 abc).phase = .active := rfl

theorem witness_ChunksDoNotMatter : (inProgress iv256 0 (letters 63)).phase = .active := rfl

theorem witness_UpdateIsAByteFold : (inProgress iv256 0 (letters 63)).phase = .active := rfl

theorem witness_HashChangesOnlyByCompress :
    (∃ t, (∀ variant, Instr.final ≠ .init variant) ∧ exec .final (inProgress iv256 0 abc) = .next t) ∧
    (∃ t, (∀ variant, Instr.update abc ≠ .init variant) ∧ exec (.update abc) (inProgress iv256 0 (letters 63)) = .next t) :=
  ⟨⟨_, by simp, rfl⟩, ⟨_, by simp, rfl⟩⟩

theorem witness_FinalEmitsTheDigestOfH : (inProgress iv256 0 abc).phase = .active := rfl

theorem witness_Sha224LeavesOutTheEighthWord :
    finalizedEngine.digestLen = 28 ∧ (inProgress iv256 0 abc).digestLen = 32 := by decide

/-- The ends of the fills that do not spill, 0 and 55, and of those that do, 56 and 63, with the blocks of
95_test_vectors.md section 5. -/
theorem witness_FinalCompressesTheMarkedZeroFilledBlocks :
    (∀ bs ∈ [letters 0, letters 55],
      let s := inProgress iv256 0 bs
      let blk := overwrite (overwrite (Vector.replicate 64 0) 0 (bs ++ [0x80])) 62 (if bs = [] then [0, 0] else [0x01, 0xb8])
      s.phase = .active ∧ s.fill ≤ 55 ∧
      (∀ (j : Nat) (_ : j < 64), j < s.fill → blk[j] = s.buf[j]) ∧
      (∀ (j : Nat) (_ : j < 64), j = s.fill → blk[j] = 0x80) ∧
      (∀ (j : Nat) (_ : j < 64), s.fill < j → j < 56 → blk[j] = 0x00) ∧
      (∀ (j : Nat) (_ : j < 64), 56 ≤ j →
        blk[j].toNat = (s.totalLen.toNat * 8 % 2 ^ 64) / 2 ^ (8 * (63 - j)) % 256)) ∧
    (∀ bs ∈ [letters 56, letters 63],
      let s := inProgress iv256 0 bs
      let blk1 := overwrite (Vector.replicate 64 0) 0 (bs ++ [0x80])
      let blk2 := overwrite (Vector.replicate 64 0) 62 [0x01, if bs.length = 56 then 0xc0 else 0xf8]
      s.phase = .active ∧ 56 ≤ s.fill ∧
      (∀ (j : Nat) (_ : j < 64), j < s.fill → blk1[j] = s.buf[j]) ∧
      (∀ (j : Nat) (_ : j < 64), j = s.fill → blk1[j] = 0x80) ∧
      (∀ (j : Nat) (_ : j < 64), s.fill < j → blk1[j] = 0x00) ∧
      (∀ (j : Nat) (_ : j < 64), j < 56 → blk2[j] = 0x00) ∧
      (∀ (j : Nat) (_ : j < 64), 56 ≤ j →
        blk2[j].toNat = (s.totalLen.toNat * 8 % 2 ^ 64) / 2 ^ (8 * (63 - j)) % 256)) := by
  constructor <;> decide +kernel

theorem witness_PaddingFsmComputesFinal :
    (inProgress iv256 0 (letters 55)).phase = .active ∧ (inProgress iv256 0 (letters 56)).phase = .active := ⟨rfl, rfl⟩

/-- Messages on both sides of the spill. -/
theorem witness_CompressCallsAreThePaddedBlocks :
    ∀ m ∈ [letters 55, letters 56], ∃ s1 s2, m.length < 2 ^ 61 ∧
      exec (.init 256) State.reset = .next s1 ∧ exec (.update m) s1 = .next s2 := by
  intro m hm
  have hl : m.length < 2 ^ 61 := by
    simp only [List.mem_cons, List.not_mem_nil, or_false] at hm
    rcases hm with rfl | rfl <;> decide
  exact ⟨_, _, hl, rfl, rfl⟩

/-- The empty message, one inside a block, and one past it. -/
theorem witness_FinalEmitsTheDigestOfTheMessage :
    (inProgress iv256 0 []).phase = .active ∧ Absorbed .sha256 [] (inProgress iv256 0 []) ∧ ([] : List Byte).length < 2 ^ 61 ∧
    (inProgress iv256 0 abc).phase = .active ∧ Absorbed .sha256 abc (inProgress iv256 0 abc) ∧ abc.length < 2 ^ 61 ∧
    (inProgress (compress iv256 (Vector.replicate 64 0x61)) 1 (letters 2)).phase = .active ∧
    Absorbed .sha256 (letters 66) (inProgress (compress iv256 (Vector.replicate 64 0x61)) 1 (letters 2)) ∧
    (letters 66).length < 2 ^ 61 :=
  ⟨rfl, ⟨by decide, by decide, by decide, by decide⟩, by decide,
   rfl, ⟨by decide, by decide, by decide, by decide +kernel⟩, by decide,
   rfl, ⟨by decide, by decide, by decide +kernel, by decide +kernel⟩, by decide⟩

/-- Both commands, both phases, and streams that begin with an UPDATE of no and of 255 bytes. -/
theorem witness_RejectedCommandsOnlyAnswer :
    (Instr.final = .final ∨ ∃ data, Instr.final = .update data) ∧
    (Instr.update [] = .final ∨ ∃ data, Instr.update [] = .update data) ∧
    State.reset.phase = .uninit ∧ finalizedEngine.phase = .finalized ∧
    (∀ data ∈ [[], letters 255], (BitVec.ofNat 32 (2 * 2 ^ 24 + data.length) : Word).toNat = 2 * 2 ^ 24 + data.length ∧
      data.length < 2 ^ 24 ∧
      ∀ s ∈ [State.reset, finalizedEngine],
        ({ s with commands := be32Bytes (BitVec.ofNat 32 (2 * 2 ^ 24 + data.length)) ++ (data ++ [0x03]) } : State).commands =
          be32Bytes (BitVec.ofNat 32 (2 * 2 ^ 24 + data.length)) ++ (data ++ [0x03])) := by
  refine ⟨.inl rfl, .inr ⟨[], rfl⟩, rfl, rfl, ?_⟩
  intro data hd
  simp only [List.mem_cons, List.not_mem_nil, or_false] at hd
  rcases hd with rfl | rfl <;> exact ⟨by decide +kernel, by decide +kernel, fun _ _ => rfl⟩

/-- The edges of both cases, in every phase. -/
theorem witness_ReservedHeaderIsAnsweredIllegal :
    (∀ s ∈ [State.reset, inProgress iv256 0 abc, finalizedEngine],
      ({ s with commands := be32Bytes 0x03000001 ++ [0x02] } : State).commands = be32Bytes 0x03000001 ++ [0x02]) ∧
    (∀ hdr ∈ [(0x00000000 : Word), 0x00FFFFFF, 0x04000000, 0xFFFFFFFF, 0x03000001, 0x03FFFFFF],
      (hdr.toNat / 2 ^ 24 ≠ 1 ∧ hdr.toNat / 2 ^ 24 ≠ 2 ∧ hdr.toNat / 2 ^ 24 ≠ 3) ∨
        (hdr.toNat / 2 ^ 24 = 3 ∧ hdr.toNat % 2 ^ 24 ≠ 0)) := by
  refine ⟨fun _ _ => rfl, ?_⟩
  simp only [List.mem_cons, List.not_mem_nil, or_false]
  rintro hdr (rfl | rfl | rfl | rfl | rfl | rfl) <;> decide

/-- Both digest lengths while a message is in progress, and the two phases that reject. -/
theorem witness_ResponsesHaveTheirForm :
    ∀ s ∈ [inProgress iv256 0 abc, { inProgress iv224 0 abc with digestLen := 28 }, State.reset, finalizedEngine],
      (s.phase = .active → s.digestLen = 28 ∨ s.digestLen = 32) ∧ (∃ t, exec .final s = .next t) ∧
      ∃ t, answerReserved s = .next t := by
  simp only [List.mem_cons, List.not_mem_nil, or_false]
  rintro s (rfl | rfl | rfl | rfl)
  · exact ⟨by decide, ⟨_, rfl⟩, _, rfl⟩
  · exact ⟨by decide, ⟨_, rfl⟩, _, rfl⟩
  · exact ⟨by decide, ⟨_, rfl⟩, _, rfl⟩
  · exact ⟨by decide, ⟨_, rfl⟩, _, rfl⟩

theorem witness_PhaseFollowsTheLifecycle :
    (∃ t, exec (.init 1) finalizedEngine = .next t) ∧
    (∃ t, exec (.update abc) State.reset = .next t ∧ State.reset.phase = .uninit) ∧
    (∃ t, exec (.update abc) finalizedEngine = .next t ∧ finalizedEngine.phase = .finalized) ∧
    (∃ t, exec .final State.reset = .next t ∧ State.reset.phase = .uninit) ∧
    (∃ t, exec .final (inProgress iv256 0 abc) = .next t ∧ (inProgress iv256 0 abc).phase = .active) ∧
    (∃ t, exec .final finalizedEngine = .next t ∧ finalizedEngine.phase = .finalized) ∧
    (∃ t, answerReserved finalizedEngine = .next t) :=
  ⟨⟨_, rfl⟩, ⟨_, rfl, rfl⟩, ⟨_, rfl, rfl⟩, ⟨_, rfl, rfl⟩, ⟨_, rfl, rfl⟩, ⟨_, rfl, rfl⟩, ⟨_, rfl⟩⟩

theorem witness_OnlyInitWritesDigestLen :
    (∃ t, (∀ variant, Instr.final ≠ .init variant) ∧ exec .final (inProgress iv256 0 abc) = .next t) ∧
    (∃ t, answerReserved finalizedEngine = .next t) ∧ (∃ t, exec (.init 224) State.reset = .next t) ∧
    finalizedEngine.digestLen = 28 ∧ (inProgress iv256 0 abc).digestLen = 32 :=
  ⟨⟨_, by simp, rfl⟩, ⟨_, rfl⟩, ⟨_, rfl⟩, by decide, by decide⟩

theorem witness_UpdateExtendsTheMessage :
    (∃ t, exec (.init 224) finalizedEngine = .next t) ∧
    ∃ t, (inProgress iv256 0 abc).phase = .active ∧ Absorbed .sha256 abc (inProgress iv256 0 abc) ∧
      exec (.update (letters 61)) (inProgress iv256 0 abc) = .next t :=
  ⟨⟨_, rfl⟩, ⟨_, rfl, witness_FinalEmitsTheDigestOfTheMessage.2.2.2.2.1, rfl⟩⟩

/-- An engine that has finalized the empty message, with the words of 95_test_vectors.md section 4. -/
def finalizedEmpty : State :=
  { inProgress #v[0xe3b0c442, 0x98fc1c14, 0x9afbf4c8, 0x996fb924, 0x27ae41e4, 0x649b934c, 0xa495991b, 0x7852b855] 0 [] with
    phase := .finalized }

theorem witness_InvGivesLegalDigestLen :
    (inProgress iv256 0 abc).Inv ∧ (inProgress iv256 0 abc).phase ≠ .uninit ∧
    finalizedEmpty.Inv ∧ finalizedEmpty.phase ≠ .uninit :=
  ⟨⟨.sha256, abc, witness_FinalEmitsTheDigestOfTheMessage.2.2.2.2.1⟩, by decide,
   ⟨.sha256, [], ⟨by decide, by decide, by decide +kernel⟩⟩, by decide⟩

theorem witness_StepKeepsInv :
    ∃ t, ({ inProgress iv256 0 abc with commands := [0x03, 0, 0, 0] } : State).Inv ∧
      step { inProgress iv256 0 abc with commands := [0x03, 0, 0, 0] } = .next t := by
  have h := witness_FinalEmitsTheDigestOfTheMessage.2.2.2.2.1
  exact ⟨_, ⟨.sha256, abc, ⟨h.variant, h.count, h.hash, h.leftover⟩⟩, rfl⟩

theorem witness_StepRunsTheDecodedCommand :
    decode (delivered [0x02, 0x00, 0x00, 0x01, 0x61, 0x03]).commands = .command (.update [0x61]) [0x03] := by decide

theorem witness_IdleEngineChangesNothing : State.reset.commands = [] ∧ State.reset.laterCommands = [] := ⟨rfl, rfl⟩

/-- One and three bytes of a header; an UPDATE header alone, and one with all but one payload byte. -/
theorem witness_PartialCommandHangs :
    (delivered [0x01]).laterCommands = [] ∧
    (∀ bs ∈ [[(0x01 : Byte)], [0x01, 0, 0]], 0 < (delivered bs).commands.length ∧ (delivered bs).commands.length < 4) ∧
    (∀ sent ∈ [[], letters 255], (0x02000100 : Word).toNat / 2 ^ 24 = 2 ∧ sent.length < (0x02000100 : Word).toNat % 2 ^ 24 ∧
      (delivered (be32Bytes 0x02000100 ++ sent)).commands = be32Bytes 0x02000100 ++ sent) := by
  refine ⟨rfl, by decide, ?_⟩
  intro sent hs
  simp only [List.mem_cons, List.not_mem_nil, or_false] at hs
  rcases hs with rfl | rfl <;> exact ⟨by decide, by decide +kernel, rfl⟩

/-- Both disjuncts, and an idle engine. -/
theorem witness_HardwareResetDropsAPartialCommand :
    ∀ bs ∈ [[], [(0x01 : Byte), 0, 0], be32Bytes 0x02000002 ++ [0x61]],
      let s : State := { finalizedEngine with commands := bs, laterCommands := [[0x01], []] }
      s.laterCommands = [0x01] :: [[]] ∧
      (s.commands.length < 4 ∨ ∃ (hdr : Word) (sent : List Byte), hdr.toNat / 2 ^ 24 = 2 ∧
        sent.length < hdr.toNat % 2 ^ 24 ∧ s.commands = be32Bytes hdr ++ sent) := by
  intro bs hb
  simp only [List.mem_cons, List.not_mem_nil, or_false] at hb
  rcases hb with rfl | rfl | rfl
  · exact ⟨rfl, .inl (by decide)⟩
  · exact ⟨rfl, .inl (by decide)⟩
  · exact ⟨rfl, .inr ⟨0x02000002, [0x61], by decide, by decide, rfl⟩⟩

/-- Two states that differ in what is not specified: all four registers before INIT, and BUF from the fill up. -/
theorem witness_UnspecifiedValuesAreNeverSeen :
    SameSpecified State.reset { State.reset with h := iv256, digestLen := 28, totalLen := 9, buf := Vector.replicate 64 1 } ∧
    SameSpecified (inProgress iv256 0 abc) { inProgress iv256 0 abc with buf := overwrite (Vector.replicate 64 1) 0 abc } ∧
    (inProgress iv256 0 abc).buf ≠ overwrite (Vector.replicate 64 1) 0 abc := by
  refine ⟨⟨rfl, rfl, rfl, rfl, rfl, ?_, ?_, ?_, ?_⟩, ⟨rfl, rfl, rfl, rfl, rfl, fun _ => rfl, fun _ => rfl, fun _ => rfl, ?_⟩,
    by decide +kernel⟩
  · decide
  · decide
  · decide
  · intro h
    cases h
  · intro _
    decide +kernel

/-- No chunk, and three chunks, an empty one among them, from reset and from a finalized engine. -/
theorem witness_AnyChunkingGivesTheDigest :
    ∀ chunks ∈ [[], [abc, [], letters 64]],
      (∀ c ∈ chunks, c.length ≤ Config.maxUpdateLen) ∧ chunks.flatten.length < 2 ^ 61 ∧
      (∀ s ∈ [State.reset, finalizedEngine],
        ({ s with commands := encodeAll (.init 224 :: (chunks.map .update ++ [.final])) ++ [0x01] } : State).commands =
          encodeAll (.init 224 :: (chunks.map .update ++ [.final])) ++ [0x01]) := by
  intro chunks hc
  simp only [List.mem_cons, List.not_mem_nil, or_false] at hc
  rcases hc with rfl | rfl <;> exact ⟨by decide, by decide, fun _ _ => rfl⟩

/-- Two engines, a whole command delivered to each, both orders. -/
theorem witness_EnginesDoNotAffectEachOther :
    let p : Platform 2 := #v[delivered [0x01, 0, 0, 0], delivered [0x03, 0, 0, 0]]
    ∃ q r, p.stepEngine 0 = .next q ∧ (1 : Fin 2) ≠ 0 ∧ q.stepEngine 1 = .next r := ⟨_, _, rfl, by decide, rfl⟩

theorem witness_SplitUpdateIsOneUpdate :
    Instr.update abc ∈ updateCommands abc ∧ (inProgress iv256 0 (letters 63)).phase = .active := by
  refine ⟨?_, rfl⟩
  simp [updateCommands, splitBytes, abc, Config.maxUpdateLen]

end Sys2Proof.Tests
end

section
/-! SUPPORT. What INIT's 24-bit operand selects (41_init.md rule R74). -/

namespace Sys2Proof.Machine

/-- Zero extension makes no other argument 224 (R47). -/
theorem variantOperand_eq_224 {variant : BitVec 24} : variantOperand variant = 224 ↔ variant = 224 := by
  rw [variantOperand]
  bv_omega

theorem selectVariant_of_eq {variant : BitVec 24} (h : variant = 224) :
    selectVariant (variantOperand variant) = .sha224 := if_pos (variantOperand_eq_224.mpr h)

theorem selectVariant_of_ne {variant : BitVec 24} (h : variant ≠ 224) :
    selectVariant (variantOperand variant) = .sha256 := if_neg (mt variantOperand_eq_224.mp h)

end Sys2Proof.Machine
end

section
/-! What each command does to DIGEST_LEN, and how many bytes the digest has (10_state.md rule R19). -/

namespace Sys2Proof.Machine

theorem exec_init_digestLen {variant : BitVec 24} {s t : State} (h : exec (.init variant) s = .next t) :
    t.digestLen = (selectVariant (variantOperand variant)).digestLen := by
  rw [exec_init] at h
  injection h with h
  rw [← h, State.emit_digestLen, startMessage_digestLen]

theorem exec_keeps_digestLen {i : Instr} {s t : State} (hi : ∀ variant, i ≠ .init variant)
    (h : exec i s = .next t) : t.digestLen = s.digestLen := by
  obtain ⟨variant, rfl, -⟩ | ⟨data, -, -, rfl⟩ | ⟨-, -, rfl⟩ | ⟨-, -, rfl⟩ | ⟨-, -, rfl⟩ := exec_cases h
  · exact absurd rfl (hi variant)
  · obtain ⟨-, hd, -⟩ := absorb_frame data s
    rw [State.emit_digestLen, hd]
  · obtain ⟨-, -, -, -, -, hf, -⟩ := finish_frame (pad s)
    obtain ⟨-, hp, -⟩ := pad_frame s
    rw [hf, hp]
  · exact s.emit_digestLen _
  · exact s.emit_digestLen _

theorem answerReserved_keeps_digestLen {s t : State} (h : answerReserved s = .next t) :
    t.digestLen = s.digestLen := by
  rw [answerReserved, raiseError] at h
  injection h with h
  rw [← h, State.emit_digestLen]

/-- The digest has DIGEST_LEN bytes as long as the serialisation of H has that many (R91). -/
theorem length_digest {s : State} (h : s.digestLen.toNat ≤ 32) : (digest s).length = s.digestLen.toNat := by
  rw [digest, List.length_take, length_hashBytes, Nat.min_eq_left h]

/-- Settles O40: only the INIT case of `exec_cases` writes DIGEST_LEN, and both its values are at most
the 32 bytes of the serialisation of H. -/
theorem onlyInitWritesDigestLen : Obligations.OnlyInitWritesDigestLen := by
  refine ⟨fun i s t => exec_keeps_digestLen, fun s t => answerReserved_keeps_digestLen, ?_, ?_⟩
  · intro variant s t h
    rw [exec_init_digestLen h]
    refine ⟨fun hv => ?_, fun hv => ?_⟩
    · rw [selectVariant_of_eq hv, Variant.digestLen]
    · rw [selectVariant_of_ne hv, Variant.digestLen]
  · intro s h
    apply length_digest
    obtain h | h := h <;> rw [h] <;> decide

end Sys2Proof.Machine
end

section
/-! The header decoder against the match and mask table (30_encoding.md rule R51). -/

namespace Sys2Proof

/-- ARG is the low 24 bits of the header (R45). -/
theorem headerArg_eq_setWidth (hdr : Word) : headerArg hdr = hdr.setWidth 24 :=
  BitVec.eq_of_toNat_eq (by rw [headerArg_toNat, BitVec.toNat_setWidth])

/-- The mask of INIT and UPDATE keeps OPC and clears ARG. -/
theorem and_opcMask (hdr : Word) : hdr &&& 0xFF000000 = headerOpc hdr ++ (0 : BitVec 24) := by
  have hmask : (0xFF000000 : Word) = BitVec.allOnes 8 ++ (0 : BitVec 24) := by decide
  calc hdr &&& 0xFF000000
      = (headerOpc hdr ++ headerArg hdr) &&& (BitVec.allOnes 8 ++ (0 : BitVec 24)) := by
        rw [headerOpc_append_headerArg, hmask]
    _ = headerOpc hdr ++ (0 : BitVec 24) := by
        rw [BitVec.and_append, BitVec.and_allOnes, BitVec.ofNat_eq_ofNat, BitVec.and_zero]

/-- So a match under that mask says what OPC is. -/
theorem and_opcMask_eq_iff {hdr : Word} {opc : BitVec 8} :
    hdr &&& 0xFF000000 = opc ++ (0 : BitVec 24) ↔ headerOpc hdr = opc := by
  rw [and_opcMask]
  refine ⟨fun h => ?_, fun h => by rw [h]⟩
  rw [← headerOpc_append (headerOpc hdr) 0, h, headerOpc_append]

/-- The mask of FINAL keeps the whole header. -/
theorem and_finalMask (hdr : Word) : hdr &&& 0xFFFFFFFF = hdr := BitVec.and_allOnes

theorem decodeHeader_init {hdr : Word} (h : headerOpc hdr = 0x01) : decodeHeader hdr = .init (headerArg hdr) :=
  if_pos h

theorem decodeHeader_update {hdr : Word} (h : headerOpc hdr = 0x02) :
    decodeHeader hdr = .update (headerArg hdr) := by
  have h1 : headerOpc hdr ≠ 0x01 := by rw [h]; decide
  rw [decodeHeader, if_neg h1, if_pos h]

/-- Every header but INIT's, UPDATE's and the one word of FINAL is reserved (R50). -/
theorem decodeHeader_illegal {hdr : Word} (h1 : headerOpc hdr ≠ 0x01) (h2 : headerOpc hdr ≠ 0x02)
    (h3 : hdr ≠ 0x03000000) : ∃ why, decodeHeader hdr = .illegal why := by
  rw [decodeHeader, if_neg h1, if_neg h2]
  by_cases ho : headerOpc hdr = 0x03
  · have ha : headerArg hdr ≠ 0 := by
      intro ha
      apply h3
      rw [← headerOpc_append_headerArg hdr, ho, ha]
      decide
    exact ⟨_, by rw [if_pos ho, if_neg ha]⟩
  · exact ⟨_, if_neg ho⟩

/-- Settles O3: a match under the masks says what OPC is, or that the header is the word of FINAL, and these
are the branches of the decoder. -/
theorem headerDecodesByMatchAndMask : Obligations.HeaderDecodesByMatchAndMask := by
  intro hdr
  have init_iff : hdr &&& 0xFF000000 = 0x01000000 ↔ headerOpc hdr = 0x01 := and_opcMask_eq_iff (opc := 0x01)
  have update_iff : hdr &&& 0xFF000000 = 0x02000000 ↔ headerOpc hdr = 0x02 := and_opcMask_eq_iff (opc := 0x02)
  rw [and_finalMask, ← headerArg_eq_setWidth]
  refine ⟨fun h => decodeHeader_init (init_iff.mp h), fun h => decodeHeader_update (update_iff.mp h), ?_,
    fun h1 h2 => decodeHeader_illegal (mt init_iff.mpr h1) (mt update_iff.mpr h2)⟩
  rintro rfl
  exact Laws.HeaderDecodes.final

end Sys2Proof
end

section
/-! The response of every command and of a reserved header (30_encoding.md rule R53). -/

namespace Sys2Proof.Machine

theorem exec_init_responses {variant : BitVec 24} {s t : State} (h : exec (.init variant) s = .next t) :
    t.responses = s.responses ++ [0x00] := by
  rw [exec_init] at h
  injection h with h
  rw [← h, State.emit_responses, startMessage_responses, Status.code]

theorem exec_update_responses {data : List Byte} {s t : State} (hp : s.phase = .active)
    (h : exec (.update data) s = .next t) : t.responses = s.responses ++ [0x00] := by
  rw [exec_update_active data hp] at h
  injection h with h
  obtain ⟨-, -, -, -, -, hr, -⟩ := absorb_frame data s
  rw [← h, State.emit_responses, hr, Status.code]

/-- FINAL's response ends with the digest of the padded state (R84). -/
theorem exec_final_responses {s t : State} (hp : s.phase = .active) (h : exec .final s = .next t) :
    t.responses = s.responses ++ 0x00 :: digest (pad s) := by
  rw [exec_final_active hp] at h
  injection h with h
  obtain ⟨-, hf, -⟩ := finish_frame (pad s)
  obtain ⟨-, -, -, -, -, hr, -⟩ := pad_frame s
  rw [← h, hf, hr]

/-- A rejected command answers the one status byte of the phase that rejects it (R98, R100). -/
theorem exec_rejected_responses {i : Instr} {s t : State} (hi : ∀ variant, i ≠ .init variant)
    (hp : s.phase ≠ .active) (h : exec i s = .next t) :
    (s.phase = .uninit ∧ t.responses = s.responses ++ [0x02]) ∨
    (s.phase = .finalized ∧ t.responses = s.responses ++ [0x03]) := by
  obtain ⟨variant, rfl, -⟩ | ⟨-, -, ha, -⟩ | ⟨-, ha, -⟩ | ⟨-, hu, rfl⟩ | ⟨-, hf, rfl⟩ := exec_cases h
  · exact absurd rfl (hi variant)
  · exact absurd ha hp
  · exact absurd ha hp
  · exact .inl ⟨hu, s.emit_responses _⟩
  · exact .inr ⟨hf, s.emit_responses _⟩

theorem answerReserved_responses {s t : State} (h : answerReserved s = .next t) :
    t.responses = s.responses ++ [0x01] := by
  rw [answerReserved, raiseError] at h
  injection h with h
  rw [← h, State.emit_responses, Status.code]

/-- Padding keeps DIGEST_LEN, so at either of its legal values FINAL's digest has exactly that many bytes (R91). -/
theorem length_digest_pad {s : State} (h : s.digestLen = 28 ∨ s.digestLen = 32) :
    (digest (pad s)).length = s.digestLen.toNat := by
  obtain ⟨-, hd, -⟩ := pad_frame s
  have hle : s.digestLen.toNat ≤ 32 := by obtain h | h := h <;> rw [h] <;> decide
  rw [← hd] at hle ⊢
  exact length_digest hle

/-- Settles O37, command by command, with UPDATE and FINAL split on whether the phase accepts them. -/
theorem responsesHaveTheirForm : Obligations.ResponsesHaveTheirForm := by
  refine ⟨fun i s t hlen h => ?_, fun s t => answerReserved_responses⟩
  have rejected (hi : ∀ variant, i ≠ .init variant) (hp : s.phase ≠ .active) :
      ∃ r, t.responses = s.responses ++ r ∧ (r = [0x02] ∨ r = [0x03]) := by
    obtain ⟨-, hr⟩ | ⟨-, hr⟩ := exec_rejected_responses hi hp h
    · exact ⟨_, hr, .inl rfl⟩
    · exact ⟨_, hr, .inr rfl⟩
  cases i with
  | init variant => exact ⟨_, exec_init_responses h, rfl⟩
  | update data =>
    by_cases hp : s.phase = .active
    · simp only [if_pos hp]
      exact ⟨_, exec_update_responses hp h, rfl⟩
    · simp only [if_neg hp]
      exact rejected (by simp) hp
  | final =>
    by_cases hp : s.phase = .active
    · simp only [if_pos hp]
      exact ⟨_, exec_final_responses hp h, _, rfl, length_digest_pad (hlen hp)⟩
    · simp only [if_neg hp]
      exact rejected (by simp) hp

end Sys2Proof.Machine
end

section
/-! Ch, Maj and the sigma functions bit by bit (40_compression.md rules R58 to R63). -/

namespace Sys2Proof.Machine

/-- Bit i of Ch: the two masked words are never 1 in the same place (R58). -/
theorem getLsbD_ch (x y z : Word) {i : Nat} (hi : i < 32) :
    (ch x y z).getLsbD i = if x.getLsbD i then y.getLsbD i else z.getLsbD i := by
  rw [ch, BitVec.getLsbD_xor, BitVec.getLsbD_and, BitVec.getLsbD_and, BitVec.getLsbD_not]
  cases x.getLsbD i <;> simp [hi]

/-- Bit i of Maj is set exactly when two of the three bits are (R59). -/
theorem getLsbD_maj_iff (x y z : Word) (i : Nat) :
    (maj x y z).getLsbD i = true ↔
      2 ≤ (x.getLsbD i).toNat + (y.getLsbD i).toNat + (z.getLsbD i).toNat := by
  simp only [maj, BitVec.getLsbD_xor, BitVec.getLsbD_and]
  generalize x.getLsbD i = a, y.getLsbD i = b, z.getLsbD i = c
  revert a b c
  decide

/-- Settles O7: the formulas are the definitions, the bits follow from the lemmas above. -/
theorem chooseAndMajorityBitByBit : Obligations.ChooseAndMajorityBitByBit :=
  ⟨fun _ _ _ => ⟨rfl, rfl⟩, fun x y z i hi => ⟨getLsbD_ch x y z hi, getLsbD_maj_iff x y z i⟩,
    by decide, by decide⟩

/-- Bit i of an upper sigma's form: three rotations (R60, R61). -/
theorem getLsbD_rotr_xor_rotr_xor_rotr (x : Word) {i j k l : Nat} (hi : i < 32)
    (hj : 0 < j ∧ j < 32) (hk : 0 < k ∧ k < 32) (hl : 0 < l ∧ l < 32) :
    (rotr x j ^^^ rotr x k ^^^ rotr x l).getLsbD i =
      (x.getLsbD ((i + j) % 32) ^^ x.getLsbD ((i + k) % 32) ^^ x.getLsbD ((i + l) % 32)) := by
  rw [BitVec.getLsbD_xor, BitVec.getLsbD_xor, rotr_getLsbD x j i hi hj.1 hj.2,
    rotr_getLsbD x k i hi hk.1 hk.2, rotr_getLsbD x l i hi hl.1 hl.2]

/-- A logical right shift brings in zeros from above the word. -/
theorem getLsbD_ushiftRight_eq_decide_and (x : Word) (i n : Nat) :
    (x >>> n).getLsbD i = (decide (i + n < 32) && x.getLsbD (i + n)) := by
  rw [BitVec.getLsbD_ushiftRight, Nat.add_comm n i]
  by_cases h : i + n < 32
  · rw [decide_eq_true h, Bool.true_and]
  · rw [decide_eq_false h, Bool.false_and, BitVec.getLsbD_of_ge x (i + n) (by omega)]

/-- Bit i of a lower sigma's form: two rotations and a logical shift (R62, R63). -/
theorem getLsbD_rotr_xor_rotr_xor_ushiftRight (x : Word) {i j k : Nat} (l : Nat) (hi : i < 32)
    (hj : 0 < j ∧ j < 32) (hk : 0 < k ∧ k < 32) :
    (rotr x j ^^^ rotr x k ^^^ (x >>> l)).getLsbD i =
      (x.getLsbD ((i + j) % 32) ^^ x.getLsbD ((i + k) % 32) ^^
        (decide (i + l < 32) && x.getLsbD (i + l))) := by
  rw [BitVec.getLsbD_xor, BitVec.getLsbD_xor, rotr_getLsbD x j i hi hj.1 hj.2,
    rotr_getLsbD x k i hi hk.1 hk.2, getLsbD_ushiftRight_eq_decide_and]

/-- Settles O8: each sigma is one of the two forms, at the rule's distances. -/
theorem sigmaBitsAreRotatedAndShifted : Obligations.SigmaBitsAreRotatedAndShifted := by
  refine ⟨fun x i hi => ⟨?_, ?_, ?_, ?_⟩, by decide, by decide, by decide, by decide, by decide, by decide⟩
  · exact getLsbD_rotr_xor_rotr_xor_rotr x hi (by decide) (by decide) (by decide)
  · exact getLsbD_rotr_xor_rotr_xor_rotr x hi (by decide) (by decide) (by decide)
  · exact getLsbD_rotr_xor_rotr_xor_ushiftRight x 3 hi (by decide) (by decide)
  · exact getLsbD_rotr_xor_rotr_xor_ushiftRight x 10 hi (by decide) (by decide)

end Sys2Proof.Machine
end

section
/-! The round constants: the integer cube root found bit by bit, and the 64 primes (40_compression.md rule
R64). -/

namespace Sys2Proof.Machine

/-- Each decided bit halves the interval that holds the cube root. -/
theorem icbrtBits_spec {n : Nat} (k c : Nat) (hlo : c ^ 3 ≤ n) (hhi : n < (c + 2 ^ k) ^ 3) :
    icbrtBits n k c ^ 3 ≤ n ∧ n < (icbrtBits n k c + 1) ^ 3 := by
  induction k generalizing c with
  | zero => exact ⟨hlo, hhi⟩
  | succ k ih =>
    rw [icbrtBits]
    split
    case isTrue hset =>
      have hsum : c + 2 ^ k + 2 ^ k = c + 2 ^ (k + 1) := by rw [pow_succ]; omega
      exact ih (c + 2 ^ k) hset (by rwa [hsum])
    case isFalse hclear => exact ih c hlo (Nat.lt_of_not_le hclear)

theorem icbrt_spec {n : Nat} (h : n < 2 ^ 105) : icbrt n ^ 3 ≤ n ∧ n < (icbrt n + 1) ^ 3 :=
  icbrtBits_spec 35 0 (Nat.zero_le n) (by omega)

/-- The r-th element that a filter keeps of 0, 1, 2, … has r kept ones below it. -/
theorem count_getElem_filter_range (p : Nat → Prop) [DecidablePred p] (n r : Nat)
    (hr : r < ((List.range n).filter (p ·)).length) :
    Nat.count p ((List.range n).filter (p ·))[r] = r := by
  have hcount (m : Nat) : ((List.range m).filter (p ·)).length = Nat.count p m :=
    List.countP_eq_length_filter.symm
  induction n with
  | zero => exact absurd hr (Nat.not_lt_zero r)
  | succ n ih =>
    by_cases hlt : r < ((List.range n).filter (p ·)).length
    · simp only [List.range_succ, List.filter_append, List.getElem_append_left hlt]
      exact ih hlt
    · rw [hcount] at hr hlt
      have hn : p n := Nat.count_lt_count_succ_iff.mp ((Nat.le_of_not_lt hlt).trans_lt hr)
      have hlen : ((List.range n).filter (p ·)).length = r := by
        rw [Nat.count_succ, if_pos hn] at hr
        rw [hcount]
        omega
      simp [List.range_succ, hn, List.getElem_append_right hlen.le, ← hcount, hlen]

/-- The table's second column is the primes below 312 in order. -/
theorem romPrimes_eq_filter_range : romPrimes = (List.range 312).filter (Nat.Prime ·) := by decide +kernel

theorem length_romPrimes : romPrimes.length = 64 := by decide

theorem mem_romPrimes {p : Nat} : p ∈ romPrimes ↔ p < 312 ∧ Nat.Prime p := by
  rw [romPrimes_eq_filter_range, List.mem_filter, List.mem_range, decide_eq_true_iff]

/-- Entry r is the r-th prime, counting from 0. -/
theorem count_getElem_romPrimes (r : Nat) (hr : r < romPrimes.length) :
    Nat.count Nat.Prime romPrimes[r] = r := by
  simp only [romPrimes_eq_filter_range] at hr ⊢
  exact count_getElem_filter_range Nat.Prime 312 r hr

theorem toNat_roundConstant (r : Nat) (hr : r < romPrimes.length) :
    (roundConstant r).toNat = icbrt (romPrimes[r] * 2 ^ 96) % 2 ^ 32 := by
  rw [roundConstant, BitVec.toNat_ofNat, List.getD_eq_getElem _ _ hr]

/-- Settles O9: the table holds the primes in order, all below 2^9, so `icbrt` meets R64's definition. -/
theorem roundConstantsAreCubeRootDigits : Obligations.RoundConstantsAreCubeRootDigits := by
  intro r hr
  rw [← length_romPrimes] at hr
  obtain ⟨hsmall, hprime⟩ := mem_romPrimes.mp (List.getElem_mem hr)
  obtain ⟨hle, hlt⟩ := icbrt_spec (n := romPrimes[r] * 2 ^ 96) (by omega)
  exact ⟨_, _, hprime, count_getElem_romPrimes r hr, hle, hlt, toNat_roundConstant r hr⟩

end Sys2Proof.Machine
end

section
/-! The message schedule: its words never change once computed, so every one obeys the recurrence, and the
recurrence determines them (40_compression.md rule R65). -/

namespace Sys2Proof.Machine

theorem length_iterate_extendSchedule (k : Nat) (ws : List Word) :
    (extendSchedule^[k] ws).length = ws.length + k := by
  induction k with
  | zero => rfl
  | succ k ih =>
    rw [Function.iterate_succ_apply', extendSchedule, List.length_append, ih, List.length_singleton, Nat.add_assoc]

/-- Any number of extensions keeps the words that stand. -/
theorem iterate_extendSchedule_getD (k : Nat) (ws : List Word) {t : Nat} (ht : t < ws.length) :
    (extendSchedule^[k] ws).getD t 0 = ws.getD t 0 := by
  induction k with
  | zero => rfl
  | succ k ih =>
    have hlt : t < (extendSchedule^[k] ws).length := by rw [length_iterate_extendSchedule]; omega
    rw [Function.iterate_succ_apply', extendSchedule_getD _ t hlt, ih]

theorem length_schedule (blk : Block) : (schedule blk).length = 64 := by
  rw [schedule, length_iterate_extendSchedule, length_blockWords]

/-- The schedule's words below 16 + j are there after j extensions of the block words. -/
theorem schedule_getD_of_lt (blk : Block) {j t : Nat} (hj : j ≤ 48) (ht : t < 16 + j) :
    (schedule blk).getD t 0 = (extendSchedule^[j] (blockWords blk)).getD t 0 := by
  have hlen := length_iterate_extendSchedule j (blockWords blk)
  rw [length_blockWords] at hlen
  rw [schedule, show 48 = (48 - j) + j by omega, Function.iterate_add_apply,
    iterate_extendSchedule_getD _ _ (by omega)]

/-- The schedule begins with the block's word view. -/
theorem schedule_getD_blockWord (blk : Block) (t : Nat) (ht : t < 16) :
    (schedule blk).getD t 0 = be32 blk[4 * t] blk[4 * t + 1] blk[4 * t + 2] blk[4 * t + 3] := by
  rw [schedule_getD_of_lt blk (Nat.zero_le 48) ht]
  simp [blockWords, blockWord, List.getD_eq_getElem?_getD, ht]

/-- Word 16 + j is computed from the words that j extensions gave, which are the schedule's own. -/
theorem schedule_getD_recurrence (blk : Block) {n : Nat} (h16 : 16 ≤ n) (h64 : n < 64) :
    (schedule blk).getD n 0 =
      smallSigma1 ((schedule blk).getD (n - 2) 0) + (schedule blk).getD (n - 7) 0
        + smallSigma0 ((schedule blk).getD (n - 15) 0) + (schedule blk).getD (n - 16) 0 := by
  obtain ⟨j, rfl⟩ := Nat.exists_eq_add_of_le h16
  have hlen : (extendSchedule^[j] (blockWords blk)).length = 16 + j := by
    rw [length_iterate_extendSchedule, length_blockWords]
  have earlier (d : Nat) (hd : 0 < d) :
      (schedule blk).getD (16 + j - d) 0 = (extendSchedule^[j] (blockWords blk)).getD (16 + j - d) 0 :=
    schedule_getD_of_lt blk (by omega) (by omega)
  calc (schedule blk).getD (16 + j) 0
      = (extendSchedule (extendSchedule^[j] (blockWords blk))).getD (16 + j) 0 := by
        rw [schedule_getD_of_lt blk (j := j + 1) (by omega) (by omega), Function.iterate_succ_apply']
    _ = nextScheduleWord (extendSchedule^[j] (blockWords blk)) := by
        rw [← hlen, extendSchedule_getD_length]
    _ = _ := by
        rw [nextScheduleWord, hlen, earlier 2 (by decide), earlier 7 (by decide), earlier 15 (by decide),
          earlier 16 (by decide)]

/-- Settles O11, with the words of the "abc" block computed. -/
theorem scheduleFollowsTheRecurrence : Obligations.ScheduleFollowsTheRecurrence :=
  ⟨fun blk => ⟨length_schedule blk, schedule_getD_blockWord blk, fun _ => schedule_getD_recurrence blk⟩,
    by decide +kernel, by decide +kernel⟩

/-- The block words and the recurrence leave no choice of a schedule word. -/
theorem eq_schedule_getD {blk : Block} {w : Nat → Word}
    (hblk : ∀ (t : Nat) (_ : t < 16), w t = be32 blk[4 * t] blk[4 * t + 1] blk[4 * t + 2] blk[4 * t + 3])
    (hrec : ∀ n : Nat, 16 ≤ n → n < 64 →
      w n = smallSigma1 (w (n - 2)) + w (n - 7) + smallSigma0 (w (n - 15)) + w (n - 16))
    (t : Nat) (ht : t < 64) : w t = (schedule blk).getD t 0 := by
  induction t using Nat.strong_induction_on with
  | _ t ih =>
    by_cases h16 : t < 16
    · rw [hblk t h16, schedule_getD_blockWord blk t h16]
    · have hle : 16 ≤ t := Nat.le_of_not_lt h16
      rw [hrec t hle ht, schedule_getD_recurrence blk hle ht, ih (t - 2) (by omega) (by omega),
        ih (t - 7) (by omega) (by omega), ih (t - 15) (by omega) (by omega), ih (t - 16) (by omega) (by omega)]

end Sys2Proof.Machine
end

section
/-! Compress against the round equations (40_compression.md rules R67 and R68). -/

namespace Sys2Proof.Machine

/-- Variables that go through the rounds of R67 on the schedule's words are the working variables. -/
theorem eq_workingAfter {ws : List Word} {v : Nat → Working}
    (hround : ∀ r : Nat, r < 64 → v (r + 1) = compressRound (v r) (roundConstant r) (ws.getD r 0))
    (r : Nat) (hr : r ≤ 64) : v r = workingAfter (v 0) ws r := by
  induction r with
  | zero => rfl
  | succ r ih => rw [hround r hr, ih (by omega), workingAfter]

/-- Settles O12: the words and the variables of the hypotheses are the model's own. -/
theorem compressIsSixtyFourRoundsAndFeedForward : Obligations.CompressIsSixtyFourRoundsAndFeedForward := by
  refine ⟨fun s blk w v hblk hrec hload hround => ?_, by decide +kernel⟩
  have step (r : Nat) (hr : r < 64) :
      v (r + 1) = compressRound (v r) (roundConstant r) ((schedule blk).getD r 0) := by
    rw [hround r hr _ _ rfl rfl, getElem_kRom, eq_schedule_getD hblk hrec r hr, compressRound]
  have hlast : v 64 = workingAfter (Working.load s) (schedule blk) 64 := by
    rw [eq_workingAfter step 64 le_rfl, hload, Working.load]
  rw [compress, ← hlast, feedForward]

end Sys2Proof.Machine
end

section
/-! INIT starts the empty message of the variant that its operand selects (41_init.md rules R71, R73 and R74). -/

namespace Sys2Proof.Machine

/-- TOTAL_LEN 0 leaves the buffer empty (R21). -/
@[simp] theorem startMessage_fill (v : Variant) (s : State) : (startMessage v s).fill = 0 := by
  rw [State.fill, startMessage_totalLen]
  decide

theorem exec_init_h {variant : BitVec 24} {s t : State} (h : exec (.init variant) s = .next t) :
    t.h = (selectVariant (variantOperand variant)).iv := by
  rw [exec_init] at h
  injection h with h
  rw [← h, State.emit_h, startMessage_h]

/-- What INIT writes whatever its operand is. -/
theorem exec_init_empty_active {variant : BitVec 24} {s t : State} (h : exec (.init variant) s = .next t) :
    t.totalLen = 0 ∧ t.fill = 0 ∧ t.phase = .active := by
  rw [exec_init] at h
  injection h with h
  subst h
  refine ⟨?_, ?_, ?_⟩
  · rw [State.emit_totalLen, startMessage_totalLen]
  · rw [State.emit_fill, startMessage_fill]
  · rw [State.emit_phase, startMessage_phase]

/-- Settles O15: INIT has one next state, and only H and DIGEST_LEN in it depend on the selected variant. -/
theorem initStartsAMessage : Obligations.InitStartsAMessage := by
  intro variant s
  obtain ⟨t, h⟩ := exec_total (.init variant) s
  obtain ⟨htotal, hfill, hphase⟩ := exec_init_empty_active h
  refine ⟨t, h, fun hv => ?_, fun hv => ?_, htotal, hfill, hphase, exec_init_responses h⟩
  · rw [exec_init_h h, exec_init_digestLen h, selectVariant_of_eq hv]
    exact ⟨rfl, rfl⟩
  · rw [exec_init_h h, exec_init_digestLen h, selectVariant_of_ne hv]
    exact ⟨rfl, rfl⟩

end Sys2Proof.Machine
end

section
/-! The byte counter under UPDATE (42_update.md rule R78). -/

namespace Sys2Proof.Machine

theorem exec_update_totalLen {data : List Byte} {s t : State} (hp : s.phase = .active)
    (h : exec (.update data) s = .next t) : t.totalLen = s.totalLen + BitVec.ofNat 64 data.length := by
  rw [exec_update_active data hp] at h
  injection h with h
  obtain ⟨hcount, -⟩ := absorb_frame data s
  rw [← h, State.emit_totalLen, hcount]

/-- Settles O20: reducing the payload length to the counter's 64 bits first does not change the reduced sum. -/
theorem updateCountsBytesModulo : Obligations.UpdateCountsBytesModulo := by
  intro data s t hp h
  rw [exec_update_totalLen hp h, BitVec.toNat_add, BitVec.toNat_ofNat, Nat.add_mod_mod]

end Sys2Proof.Machine
end

section
/-! FINAL: the digest it emits and its frame (43_finalize.md rules R84, R91 and R92). -/

namespace Sys2Proof.Machine

/-- Settles O28: F_EMIT serialises the H that Pad left, under the DIGEST_LEN that Pad keeps. -/
theorem finalEmitsTheDigestOfH : Obligations.FinalEmitsTheDigestOfH := by
  intro s hp
  obtain ⟨fphase, -, fh, -, ftotal, fdigestLen, fcommands, flater, fearlier⟩ := finish_frame (pad s)
  obtain ⟨ptotal, pdigestLen, -, pcommands, plater, -, pearlier⟩ := pad_frame s
  have hexec := exec_final_active hp
  refine ⟨finish (pad s), hexec, ?_, fphase, ftotal.trans ptotal, fdigestLen.trans pdigestLen,
    fcommands.trans pcommands, flater.trans plater, fearlier.trans pearlier⟩
  rw [exec_final_responses hp hexec, digest, pdigestLen, fh, hashBytes_eq]

end Sys2Proof.Machine
end

section
/-! The blocks that FINAL compresses, byte by byte (43_finalize.md rules R86 to R90). -/

namespace Sys2Proof.Machine

/-- FINAL's H is Compress folded over the blocks of Pad, F_EMIT keeping it (R84, R91). -/
theorem exec_final_h {s t : State} (hp : s.phase = .active) (h : exec .final s = .next t) :
    t.h = hashBlocks s.h (padCalls s) := by
  rw [exec_final_active hp] at h
  injection h with h
  obtain ⟨-, -, hh, -⟩ := finish_frame (pad s)
  rw [← h, hh, pad_h]

/-- Below the spill Pad compresses the one block that holds both the marker and the length (R88, R90). -/
theorem padCalls_of_fill_le {s : State} (h : s.fill ≤ 55) :
    padCalls s = [(padLength (padZero (padMark s))).buf] :=
  if_neg (Nat.not_le.mpr (Nat.lt_succ_of_le h))

/-- From fill 56 the length goes to a block of its own (R88, R90). -/
theorem padCalls_of_le_fill {s : State} (h : 56 ≤ s.fill) :
    padCalls s = [(padZero (padMark s)).buf, (padLength (padSpill (padZero (padMark s)))).buf] :=
  if_pos h

/-- A byte that is the valid byte below the fill, the marker at it and zero above it is that byte of the
marked and zero-filled block (R86, R87). -/
theorem eq_padZero_padMark_buf {s : State} {b : Byte} {j : Nat} (hj : j < 64)
    (hvalid : j < s.fill → b = s.buf[j]) (hmark : j = s.fill → b = 0x80) (hzero : s.fill < j → b = 0x00) :
    b = (padZero (padMark s)).buf[j] := by
  rw [padZero_padMark_buf]
  obtain h | h | h := Nat.lt_trichotomy j s.fill
  · rw [if_pos h, hvalid h]
  · rw [if_neg (by omega), if_pos h, hmark h, Config.markerByte]
  · rw [if_neg (by omega), if_neg (by omega), hzero h]

/-- A block with the buffer's first 56 bytes and the bit length big-endian after them is the block with its
length field written (R89). -/
theorem eq_padLength_buf {s : State} {blk : Block}
    (hlow : ∀ (j : Nat) (_ : j < 64), j < 56 → blk[j] = s.buf[j])
    (hlength : ∀ (j : Nat) (_ : j < 64), 56 ≤ j →
      blk[j].toNat = (s.totalLen.toNat * 8 % 2 ^ 64) / 2 ^ (8 * (63 - j)) % 256) :
    blk = (padLength s).buf := by
  refine Vector.ext fun j hj => ?_
  rw [getElem_padLength_buf]
  by_cases h : 56 ≤ j
  · rw [if_pos h]
    apply BitVec.eq_of_toNat_eq
    rw [hlength j hj h, be64Bytes_getD _ _ (by omega), bitLength_toNat, show 7 - (j - 56) = 63 - j by omega]
  · rw [if_neg h, hlow j hj (by omega)]

/-- Settles O30: in each branch the described blocks are, byte for byte, those that Pad compresses. -/
theorem finalCompressesTheMarkedZeroFilledBlocks : Obligations.FinalCompressesTheMarkedZeroFilledBlocks := by
  constructor
  · intro s blk hp hfill hvalid hmark hzero hlength
    have hblk : blk = (padLength (padZero (padMark s))).buf := by
      refine eq_padLength_buf (fun j hj h56 => ?_) ?_
      · exact eq_padZero_padMark_buf hj (hvalid j hj) (hmark j hj) (fun h => hzero j hj h h56)
      · simpa only [padZero_totalLen, padMark_totalLen] using hlength
    have hexec := exec_final_active hp
    refine ⟨_, hexec, ?_⟩
    rw [exec_final_h hp hexec, padCalls_of_fill_le hfill, ← hblk, hashBlocks, List.foldl_cons, List.foldl_nil]
  · intro s blk1 blk2 hp hfill hvalid hmark hzero1 hzero2 hlength
    have hblk1 : blk1 = (padZero (padMark s)).buf :=
      Vector.ext fun j hj => eq_padZero_padMark_buf hj (hvalid j hj) (hmark j hj) (hzero1 j hj)
    have hblk2 : blk2 = (padLength (padSpill (padZero (padMark s)))).buf := by
      refine eq_padLength_buf (fun j hj h56 => ?_) ?_
      · rw [hzero2 j hj h56, getElem_padSpill_buf]
      · simpa only [padSpill_totalLen, padZero_totalLen, padMark_totalLen] using hlength
    have hexec := exec_final_active hp
    refine ⟨_, hexec, ?_⟩
    rw [exec_final_h hp hexec, padCalls_of_le_fill hfill, ← hblk1, ← hblk2, hashBlocks, List.foldl_cons,
      List.foldl_cons, List.foldl_nil]

end Sys2Proof.Machine
end

section
/-! What a stream that begins with an UPDATE and its payload, or with a reserved header, decodes to
(30_encoding.md rules R44, R48 and R50). -/

namespace Sys2Proof

open Sys2Proof.Machine

/-- An UPDATE takes exactly the LEN bytes after its header. -/
theorem decode_update {hdr : Word} {data : List Byte} (rest : List Byte) (hopc : headerOpc hdr = 0x02)
    (hlen : (headerArg hdr).toNat = data.length) :
    decode (be32Bytes hdr ++ (data ++ rest)) = .command (.update data) rest := by
  have hfits : data.length ≤ (data ++ rest).length := by rw [List.length_append]; omega
  simp only [decode_be32Bytes, decodeHeader_update hopc, hlen, if_pos hfits, List.take_left, List.drop_left]

/-- A reserved header takes no byte after its own four. -/
theorem decode_reserved {hdr : Word} {why : Reserved} (rest : List Byte)
    (h : decodeHeader hdr = .illegal why) : decode (be32Bytes hdr ++ rest) = .reserved why rest := by
  simp only [decode_be32Bytes, h]

/-- The arithmetic form of a reserved header: OPC is none of 1, 2 and 3, or it is 3 and ARG is not 0 (R50). -/
theorem decodeHeader_illegal_of_toNat {hdr : Word}
    (h : (hdr.toNat / 2 ^ 24 ≠ 1 ∧ hdr.toNat / 2 ^ 24 ≠ 2 ∧ hdr.toNat / 2 ^ 24 ≠ 3) ∨
      (hdr.toNat / 2 ^ 24 = 3 ∧ hdr.toNat % 2 ^ 24 ≠ 0)) : ∃ why, decodeHeader hdr = .illegal why := by
  rw [← headerOpc_toNat] at h
  apply decodeHeader_illegal
  · intro ho
    simp [ho] at h
  · intro ho
    simp [ho] at h
  · rintro rfl
    revert h
    decide

end Sys2Proof
end

section
/-! Rejected commands and reserved headers: one status byte and nothing else (60_exceptions.md rules R97 to
R100). -/

namespace Sys2Proof.Machine

/-- A step runs the whole command it finds (R11, R44). -/
theorem step_of_command {s : State} {i : Instr} {rest : List Byte} (h : decode s.commands = .command i rest) :
    step s = exec i (s.setCommands rest) := by
  simp only [step, h]

theorem step_of_reserved {s : State} {why : Reserved} {rest : List Byte}
    (h : decode s.commands = .reserved why rest) :
    step s = .next ((s.setCommands rest).emit [Status.illegalCmd.code]) := by
  simp only [step, h, answerReserved, raiseError]

theorem whenActive_uninit (k : State → State) {s : State} (hp : s.phase = .uninit) :
    whenActive k s = .next (s.emit [Status.notInit.code]) := by
  simp only [whenActive, hp, raiseError]

theorem whenActive_finalized (k : State → State) {s : State} (hp : s.phase = .finalized) :
    whenActive k s = .next (s.emit [Status.finalized.code]) := by
  simp only [whenActive, hp, raiseError]

/-- UPDATE and FINAL are the two commands behind the phase check (R76, R84). -/
theorem exec_eq_whenActive {i : Instr} (hi : i = .final ∨ ∃ data, i = .update data) :
    ∃ k, exec i = whenActive k := by
  obtain rfl | ⟨data, rfl⟩ := hi
  · exact ⟨_, rfl⟩
  · exact ⟨_, rfl⟩

/-- Before any INIT the phase check answers 02 (R98). -/
theorem exec_uninit {i : Instr} {s : State} (hi : i = .final ∨ ∃ data, i = .update data)
    (hp : s.phase = .uninit) : exec i s = .next (s.emit [Status.notInit.code]) := by
  obtain ⟨k, hk⟩ := exec_eq_whenActive hi
  rw [hk, whenActive_uninit k hp]

/-- After FINAL the phase check answers 03 (R100). -/
theorem exec_finalized {i : Instr} {s : State} (hi : i = .final ∨ ∃ data, i = .update data)
    (hp : s.phase = .finalized) : exec i s = .next (s.emit [Status.finalized.code]) := by
  obtain ⟨k, hk⟩ := exec_eq_whenActive hi
  rw [hk, whenActive_finalized k hp]

/-- A step on an UPDATE header with its whole payload runs that UPDATE, whatever the phase is. -/
theorem step_update {s : State} {hdr : Word} {data rest : List Byte}
    (hhdr : hdr.toNat = 2 * 2 ^ 24 + data.length) (hlen : data.length < 2 ^ 24)
    (hs : s.commands = be32Bytes hdr ++ (data ++ rest)) :
    step s = exec (.update data) (s.setCommands rest) := by
  have hopc : headerOpc hdr = 0x02 := by
    have htoNat := headerOpc_toNat hdr
    bv_omega
  have harg : (headerArg hdr).toNat = data.length := by rw [headerArg_toNat]; omega
  exact step_of_command (by rw [hs, decode_update rest hopc harg])

/-- Settles O35: both commands meet the phase check before any effect, and the step has taken the payload
before it. -/
theorem rejectedCommandsOnlyAnswer : Obligations.RejectedCommandsOnlyAnswer := by
  refine ⟨fun s i hi => ⟨exec_uninit hi, exec_finalized hi⟩, fun s hdr data rest hhdr hlen hs => ?_⟩
  have hi : Instr.update data = .final ∨ ∃ d, Instr.update data = .update d := .inr ⟨data, rfl⟩
  rw [step_update hhdr hlen hs]
  exact ⟨fun hp => exec_uninit hi ((s.setCommands_phase rest).trans hp),
    fun hp => exec_finalized hi ((s.setCommands_phase rest).trans hp)⟩

/-- Settles O36: such a header decodes to a reserved one, which every phase answers alike. -/
theorem reservedHeaderIsAnsweredIllegal : Obligations.ReservedHeaderIsAnsweredIllegal := by
  intro s hdr rest hs hreserved
  obtain ⟨why, hwhy⟩ := decodeHeader_illegal_of_toNat hreserved
  exact step_of_reserved (by rw [hs, decode_reserved rest hwhy])

end Sys2Proof.Machine
end

section
/-! Decode and encode: every stream of bytes is of one of four shapes, and each has its decoding
(30_encoding.md rules R44 to R52). -/

namespace Sys2Proof

open Sys2Proof.Machine

/-- The bytes of a well-formed command decode to it, whatever follows. A well-formed payload is short
enough for its length to survive in the 24-bit field (R48). -/
theorem decode_encode {i : Instr} (rest : List Byte) (hwf : i.wf = true) :
    decode (encode i ++ rest) = .command i rest := by
  rw [encode, List.append_assoc]
  cases i with
  | init variant =>
    have hhdr : decodeHeader (encodeHeader (.init variant)) = .init variant := Laws.HeaderDecodes.init variant
    simp only [decode_be32Bytes, hhdr, payload, List.nil_append]
  | update data =>
    have hlen : data.length ≤ Config.maxUpdateLen := of_decide_eq_true hwf
    rw [encodeHeader, payload]
    refine decode_update rest (headerOpc_append _ _) ?_
    rw [headerArg_append, BitVec.toNat_ofNat, Nat.mod_eq_of_lt (Nat.lt_succ_of_le hlen)]
  | final =>
    have hhdr : decodeHeader (encodeHeader .final) = .final := Laws.HeaderDecodes.final
    simp only [decode_be32Bytes, hhdr, payload, List.nil_append]

/-- Settles O1. -/
theorem decodeEncodeRoundTrip : Obligations.DecodeEncodeRoundTrip :=
  fun _ rest hwf => decode_encode rest hwf

/-- A header with its payload cut short is stuck, however much of the payload has arrived. -/
theorem decode_shortPayload {hdr : Word} {sent : List Byte} (hopc : headerOpc hdr = 0x02)
    (hlt : sent.length < (headerArg hdr).toNat) :
    decode (be32Bytes hdr ++ sent) = .shortPayload (headerArg hdr) := by
  simp only [decode_be32Bytes, decodeHeader_update hopc, if_neg (Nat.not_le_of_lt hlt)]

/-- Every header is that of INIT, of an UPDATE or of FINAL, or is reserved (R46, R51). -/
theorem header_cases (hdr : Word) :
    (∃ variant, hdr = encodeHeader (.init variant)) ∨ headerOpc hdr = 0x02 ∨
    hdr = encodeHeader .final ∨ ∃ why, decodeHeader hdr = .illegal why := by
  by_cases h1 : headerOpc hdr = 0x01
  · refine .inl ⟨headerArg hdr, ?_⟩
    rw [encodeHeader, ← h1, headerOpc_append_headerArg]
  by_cases h2 : headerOpc hdr = 0x02
  · exact .inr (.inl h2)
  by_cases h3 : hdr = 0x03000000
  · exact .inr (.inr (.inl h3))
  · exact .inr (.inr (.inr (decodeHeader_illegal h1 h2 h3)))

/-- An UPDATE header with at least LEN bytes after it starts with the encoding of a well-formed UPDATE. -/
theorem exists_encode_update {hdr : Word} {bs : List Byte} (hopc : headerOpc hdr = 0x02)
    (hle : (headerArg hdr).toNat ≤ bs.length) :
    ∃ data rest, (Instr.update data).wf = true ∧ be32Bytes hdr ++ bs = encode (.update data) ++ rest := by
  have hlen : (bs.take (headerArg hdr).toNat).length = (headerArg hdr).toNat := List.length_take_of_le hle
  refine ⟨bs.take (headerArg hdr).toNat, bs.drop (headerArg hdr).toNat, ?_, ?_⟩
  · rw [Instr.wf, decide_eq_true_iff, hlen]
    exact Nat.le_of_lt_succ (headerArg hdr).isLt
  · rw [encode, encodeHeader, payload, hlen, BitVec.ofNat_toNat, BitVec.setWidth_eq, ← hopc,
      headerOpc_append_headerArg, List.append_assoc, List.take_append_drop]

/-- The four shapes of a stream and what each decodes to: a command, a reserved header, a header cut short, a
payload cut short. -/
theorem decode_cases (bs : List Byte) :
    (∃ i rest, i.wf = true ∧ bs = encode i ++ rest ∧ decode bs = .command i rest) ∨
    (∃ hdr why rest, decodeHeader hdr = .illegal why ∧ bs = be32Bytes hdr ++ rest ∧
      decode bs = .reserved why rest) ∨
    decode bs = .shortHeader ∨ ∃ len, decode bs = .shortPayload len := by
  have command (i : Instr) (rest : List Byte) (hwf : i.wf = true) (hbs : bs = encode i ++ rest) :
      ∃ i rest, i.wf = true ∧ bs = encode i ++ rest ∧ decode bs = .command i rest :=
    ⟨i, rest, hwf, hbs, by rw [hbs, decode_encode rest hwf]⟩
  by_cases h4 : bs.length < 4
  · exact .inr (.inr (.inl (decode_of_lt h4)))
  obtain ⟨hdr, tail, rfl⟩ := exists_header (Nat.le_of_not_lt h4)
  obtain ⟨variant, rfl⟩ | hopc | rfl | ⟨why, hwhy⟩ := header_cases hdr
  · exact .inl (command (.init variant) tail rfl (by rw [encode, payload, List.append_nil]))
  · by_cases hle : (headerArg hdr).toNat ≤ tail.length
    · obtain ⟨data, rest, hwf, heq⟩ := exists_encode_update hopc hle
      exact .inl (command (.update data) rest hwf heq)
    · exact .inr (.inr (.inr ⟨_, decode_shortPayload hopc (Nat.lt_of_not_le hle)⟩))
  · exact .inl (command .final tail rfl (by rw [encode, payload, List.append_nil]))
  · exact .inr (.inl ⟨hdr, why, tail, hwhy, rfl, decode_reserved tail hwhy⟩)

theorem encode_of_decode {bs : List Byte} {i : Instr} {rest : List Byte} (h : decode bs = .command i rest) :
    i.wf = true ∧ bs = encode i ++ rest := by
  obtain ⟨j, tail, hwf, hbs, hd⟩ | ⟨_, _, _, _, _, hd⟩ | hd | ⟨_, hd⟩ := decode_cases bs
  · obtain ⟨rfl, rfl⟩ := Decoded.command.inj (hd.symm.trans h)
    exact ⟨hwf, hbs⟩
  all_goals cases hd.symm.trans h

/-- Settles O2: of the four shapes of a stream only the first decodes to a command. -/
theorem decodedBytesAreTheEncoding : Obligations.DecodedBytesAreTheEncoding :=
  fun _ _ _ => encode_of_decode

theorem header_of_decode_reserved {bs : List Byte} {why : Reserved} {rest : List Byte}
    (h : decode bs = .reserved why rest) : ∃ hdr, decodeHeader hdr = .illegal why ∧ bs = be32Bytes hdr ++ rest := by
  obtain ⟨_, _, _, _, hd⟩ | ⟨hdr, reason, tail, hwhy, hbs, hd⟩ | hd | ⟨_, hd⟩ := decode_cases bs
  case inr.inl =>
    obtain ⟨rfl, rfl⟩ := Decoded.reserved.inj (hd.symm.trans h)
    exact ⟨hdr, hwhy, hbs⟩
  all_goals cases hd.symm.trans h

/-- Settles O5: the stream is the command's or the header's own bytes and a rest, and what decodes does so
before any rest. -/
theorem laterBytesDoNotChangeTheFirstCommand : Obligations.LaterBytesDoNotChangeTheFirstCommand := by
  refine fun bs more => ⟨fun i rest h => ?_, fun why rest h => ?_⟩
  · obtain ⟨hwf, rfl⟩ := encode_of_decode h
    rw [List.append_assoc, decode_encode _ hwf]
  · obtain ⟨hdr, hwhy, rfl⟩ := header_of_decode_reserved h
    rw [List.append_assoc, decode_reserved _ hwhy]

/-- Settles O4: the decoder runs on closed byte sequences. -/
theorem specWordsDecode : Obligations.SpecWordsDecode := by
  unfold Obligations.SpecWordsDecode
  decide

end Sys2Proof
end

section
/-! The byte conversions in the numeric form of 00_scope.md rule R9. -/

namespace Sys2Proof.Machine

/-- Byte k of a decomposed word, most significant first (R9). -/
theorem be32Bytes_getD (w : Word) (k : Nat) (hk : k < 4) :
    ((be32Bytes w).getD k 0).toNat = w.toNat / 2 ^ (8 * (3 - k)) % 256 := by
  interval_cases k <;> simp [be32Bytes, Nat.shiftRight_eq_div_pow]

/-- Settles O6. -/
theorem conversionsAreBigEndian : Obligations.ConversionsAreBigEndian :=
  ⟨fun b0 b1 b2 b3 => ⟨be32_toNat b0 b1 b2 b3, be32Bytes_be32 b0 b1 b2 b3⟩, be32Bytes_getD, be64Bytes_getD⟩

end Sys2Proof.Machine
end

section
/-! The initial hash values as square-root digits of the table's first 16 primes (41_init.md rule R72). -/

namespace Sys2Proof.Machine

theorem toNat_iv256 : ∀ i : Fin 8, iv256[i].toNat = Nat.sqrt (romPrimes.getD i.val 0 * 2 ^ 64) % 2 ^ 32 := by
  decide +kernel

theorem toNat_iv224 :
    ∀ i : Fin 8, iv224[i].toNat = Nat.sqrt (romPrimes.getD (i.val + 8) 0 * 2 ^ 128) % 2 ^ 32 := by
  decide +kernel

/-- Entry r of the table is the r-th prime, and `Nat.sqrt` the largest integer whose square is at most its
argument. -/
theorem exists_prime_sqrt (r k : Nat) (hr : r < romPrimes.length) :
    ∃ p c : Nat, Nat.Prime p ∧ Nat.count Nat.Prime p = r ∧ c ^ 2 ≤ p * 2 ^ k ∧ p * 2 ^ k < (c + 1) ^ 2 ∧
      c = Nat.sqrt (romPrimes.getD r 0 * 2 ^ k) := by
  obtain ⟨-, hprime⟩ := mem_romPrimes.mp (List.getElem_mem hr)
  rw [List.getD_eq_getElem _ _ hr]
  exact ⟨_, _, hprime, count_getElem_romPrimes r hr, Nat.sqrt_le' _, Nat.lt_succ_sqrt' _, rfl⟩

/-- Settles O10: the words are the computed digits of `Nat.sqrt` at the table's primes. -/
theorem initialValuesAreSquareRootDigits : Obligations.InitialValuesAreSquareRootDigits := by
  intro i
  have hlen := length_romPrimes
  constructor
  · obtain ⟨p, c, hp, hcount, hle, hlt, hc⟩ := exists_prime_sqrt i.val 64 (by omega)
    exact ⟨p, c, hp, hcount, hle, hlt, by rw [hc, toNat_iv256]⟩
  · obtain ⟨p, c, hp, hcount, hle, hlt, hc⟩ := exists_prime_sqrt (i.val + 8) 128 (by omega)
    exact ⟨p, c, hp, hcount, hle, hlt, by rw [hc, toNat_iv224]⟩

end Sys2Proof.Machine
end

section
/-! The 16-word circular schedule (40_compression.md rule R66): its slots hold the latest 16 words of the
schedule, which is all that a round and the recurrence read. -/

namespace Sys2Proof.Machine

/-- Before round r each slot holds the schedule word of its residue among the 16 words below max(r, 16). -/
def HoldsWindow (blk : Block) (wc : Vector Word 16) (r : Nat) : Prop :=
  ∀ t : Nat, t < max r 16 → max r 16 ≤ t + 16 →
    wc[t % 16]'(Nat.mod_lt _ (by decide)) = (schedule blk).getD t 0

/-- At the start the slots are the block words. -/
theorem holdsWindow_zero (blk : Block) : HoldsWindow blk (Vector.ofFn (blockWord blk)) 0 := by
  intro t ht _
  have h16 : t < 16 := by omega
  simp only [Nat.mod_eq_of_lt h16, Vector.getElem_ofFn]
  rw [schedule_getD_blockWord blk t h16, blockWord]

/-- The slot of round r, from round 16 on, takes the recurrence's word in place of the oldest one. -/
theorem HoldsWindow.circularSlot {blk : Block} {wc : Vector Word 16} {r : Nat} (h : HoldsWindow blk wc r)
    (hr : r < 64) : HoldsWindow blk (circularSlot wc r) (r + 1) := by
  by_cases h16 : r < 16
  · rw [Machine.circularSlot, if_pos h16]
    exact fun t ht hwin => h t (by omega) (by omega)
  have hle : 16 ≤ r := Nat.le_of_not_lt h16
  intro t ht hwin
  simp only [Machine.circularSlot, if_neg h16, Vector.getElem_set]
  by_cases hnew : t = r
  · have holdest : wc[r % 16]'(Nat.mod_lt _ (by decide)) = (schedule blk).getD (r - 16) 0 := by
      have hmod : (r - 16) % 16 = r % 16 := by omega
      simpa only [hmod] using h (r - 16) (by omega) (by omega)
    subst hnew
    rw [if_pos rfl, h (t - 2) (by omega) (by omega), h (t - 7) (by omega) (by omega),
      h (t - 15) (by omega) (by omega), holdest, schedule_getD_recurrence blk hle hr]
  · rw [if_neg (by omega)]
    exact h t (by omega) (by omega)

/-- After any rounds the buffer holds its window, and the rounds have read the schedule's own words. -/
theorem circularAfter_spec (v : Working) (blk : Block) (r : Nat) (hr : r ≤ 64) :
    HoldsWindow blk (circularAfter v (Vector.ofFn (blockWord blk)) r).1 r ∧
    (circularAfter v (Vector.ofFn (blockWord blk)) r).2 = workingAfter v (schedule blk) r := by
  induction r with
  | zero => exact ⟨holdsWindow_zero blk, rfl⟩
  | succ r ih =>
    obtain ⟨hwin, hv⟩ := ih (Nat.le_of_succ_le hr)
    have hnext := hwin.circularSlot hr
    refine ⟨hnext, ?_⟩
    simp only [circularAfter, workingAfter]
    rw [hv, hnext r (by omega) (by omega)]

/-- Settles O13. -/
theorem circularScheduleCannotBeToldApart : Obligations.CircularScheduleCannotBeToldApart := by
  refine fun s blk => ⟨fun r hr => ?_, ?_⟩
  · obtain ⟨hwin, -⟩ := circularAfter_spec (Working.load s) blk (r + 1) hr
    exact hwin r (by omega) (by omega)
  · obtain ⟨-, hv⟩ := circularAfter_spec (Working.load s) blk 64 le_rfl
    rw [compressCircular, hv, compress]

/-- Settles O14: Compress runs on two closed blocks. -/
theorem compressGivesThePublishedWords : Obligations.CompressGivesThePublishedWords := by
  unfold Obligations.CompressGivesThePublishedWords
  decide +kernel

end Sys2Proof.Machine
end

section
/-! The streams under any command: a response is appended and nothing else of them changes (20_memory.md
rule R41, 60_exceptions.md rule R95). -/

namespace Sys2Proof.Machine

theorem exec_streams {i : Instr} {s t : State} (h : exec i s = .next t) :
    (∃ r, r ≠ [] ∧ t.responses = s.responses ++ r) ∧ t.commands = s.commands ∧
    t.laterCommands = s.laterCommands ∧ t.earlierResponses = s.earlierResponses := by
  obtain ⟨variant, rfl, rfl⟩ | ⟨data, rfl, -, rfl⟩ | ⟨rfl, -, rfl⟩ | ⟨-, -, rfl⟩ | ⟨-, -, rfl⟩ := exec_cases h
  · exact ⟨⟨[Status.ok.code], List.cons_ne_nil _ _, by simp⟩, by simp⟩
  · obtain ⟨-, -, -, hcommands, hlater, hresponses, hearlier⟩ := absorb_frame data s
    exact ⟨⟨_, List.cons_ne_nil _ _, by rw [State.emit_responses, hresponses]⟩, hcommands, hlater, hearlier⟩
  · obtain ⟨-, fresponses, -, -, -, -, fcommands, flater, fearlier⟩ := finish_frame (pad s)
    obtain ⟨-, -, -, pcommands, plater, presponses, pearlier⟩ := pad_frame s
    exact ⟨⟨_, List.cons_ne_nil _ _, by rw [fresponses, presponses]⟩, fcommands.trans pcommands,
      flater.trans plater, fearlier.trans pearlier⟩
  · exact ⟨⟨_, List.cons_ne_nil _ _, s.emit_responses _⟩, by simp⟩
  · exact ⟨⟨_, List.cons_ne_nil _ _, s.emit_responses _⟩, by simp⟩

/-- Settles O38: the model answers every command, and `exec_streams` says what is left of the streams. -/
theorem everyCommandIsAnswered : Obligations.EveryCommandIsAnswered := by
  intro i s
  obtain ⟨t, h⟩ := exec_total i s
  obtain ⟨⟨r, hne, hr⟩, hcommands, hlater, hearlier⟩ := exec_streams h
  exact ⟨t, r, h, hr, hne, hcommands, hlater, hearlier⟩

/-- Settles O16. -/
theorem initChangesNothingElse : Obligations.InitChangesNothingElse := by
  intro variant s t h
  obtain ⟨-, hstreams⟩ := exec_streams h
  refine ⟨?_, hstreams⟩
  rw [exec_init] at h
  injection h with h
  rw [← h, State.emit_buf, startMessage_buf]

/-- Settles O17: the registers that INIT writes hold the values it writes already. -/
theorem secondInitOnlyAnswers : Obligations.SecondInitOnlyAnswers := by
  intro variant s t h
  rw [exec_init] at h ⊢
  injection h with h
  rw [← h]
  rfl

end Sys2Proof.Machine
end

section
/-! PHASE under each command (10_state.md rule R18). -/

namespace Sys2Proof.Machine

theorem exec_update_phase {data : List Byte} {s t : State} (h : exec (.update data) s = .next t) :
    t.phase = s.phase := by
  obtain ⟨variant, hi, -⟩ | ⟨data, -, -, rfl⟩ | ⟨hi, -⟩ | ⟨-, -, rfl⟩ | ⟨-, -, rfl⟩ := exec_cases h
  · cases hi
  · obtain ⟨-, -, hphase, -⟩ := absorb_frame data s
    rw [State.emit_phase, hphase]
  · cases hi
  · exact s.emit_phase _
  · exact s.emit_phase _

theorem exec_final_phase_active {s t : State} (hp : s.phase = .active) (h : exec .final s = .next t) :
    t.phase = .finalized := by
  rw [exec_final_active hp] at h
  injection h with h
  obtain ⟨hphase, -⟩ := finish_frame (pad s)
  rw [← h, hphase]

/-- A command rejected before any INIT keeps PHASE and answers 02 (R98). -/
theorem exec_uninit_frame {i : Instr} {s t : State} (hi : i = .final ∨ ∃ data, i = .update data)
    (hp : s.phase = .uninit) (h : exec i s = .next t) :
    t.phase = .uninit ∧ t.responses = s.responses ++ [0x02] := by
  rw [exec_uninit hi hp] at h
  injection h with h
  rw [← h]
  exact ⟨hp, s.emit_responses _⟩

/-- A command rejected after FINAL keeps PHASE and answers 03 (R100). -/
theorem exec_finalized_frame {i : Instr} {s t : State} (hi : i = .final ∨ ∃ data, i = .update data)
    (hp : s.phase = .finalized) (h : exec i s = .next t) :
    t.phase = .finalized ∧ t.responses = s.responses ++ [0x03] := by
  rw [exec_finalized hi hp] at h
  injection h with h
  rw [← h]
  exact ⟨hp, s.emit_responses _⟩

/-- Settles O39. -/
theorem phaseFollowsTheLifecycle : Obligations.PhaseFollowsTheLifecycle := by
  refine ⟨fun variant s t h => ?_, fun data s t h => ?_, fun s t h => ?_, fun s t h => ?_,
    hardwareReset_phase, rfl, rfl, rfl⟩
  · obtain ⟨-, -, hphase⟩ := exec_init_empty_active h
    exact hphase
  · have hi : Instr.update data = .final ∨ ∃ d, Instr.update data = .update d := .inr ⟨data, rfl⟩
    exact ⟨exec_update_phase h, fun hp => (exec_uninit_frame hi hp h).2,
      fun hp => (exec_finalized_frame hi hp h).2⟩
  · exact ⟨fun hp => exec_uninit_frame (.inl rfl) hp h, fun hp => exec_final_phase_active hp h,
      fun hp => exec_finalized_frame (.inl rfl) hp h⟩
  · rw [answerReserved, raiseError] at h
    injection h with h
    rw [← h, State.emit_phase]

/-- Settles O41. -/
theorem resetStateIsUninit : Obligations.ResetStateIsUninit := ⟨rfl, rfl, rfl, rfl, rfl⟩

end Sys2Proof.Machine
end

section
/-! UPDATE in terms of the pending bytes (42_update.md rules R77 to R83), and the blocks that commands pass to
Compress (40_compression.md rule R70). -/

namespace Sys2Proof.Machine

/-- Settles O19: `pending` is the valid buffer bytes followed by the payload. -/
theorem updateCompressesBlocksAndKeepsLeftover : Obligations.UpdateCompressesBlocksAndKeepsLeftover := by
  intro data s hp
  refine ⟨_, exec_update_active data hp, absorb_h data s, absorb_fill data s, fun j hj hfill => ?_⟩
  rw [State.emit_fill, absorb_fill] at hfill
  exact absorb_buf data s j hj hfill

/-- Settles O21. -/
theorem updateChangesNothingElse : Obligations.UpdateChangesNothingElse := by
  intro data s hp
  have h := exec_update_active data hp
  obtain ⟨-, hcommands, hlater, hearlier⟩ := exec_streams h
  exact ⟨_, h, exec_keeps_digestLen (by simp) h, (exec_update_phase h).trans hp, hcommands, hlater, hearlier,
    exec_update_responses hp h⟩

/-- Settles O22: fewer than 64 pending bytes hold no whole block and are all left over. -/
theorem shortUpdateOnlyExtendsTheBuffer : Obligations.ShortUpdateOnlyExtendsTheBuffer := by
  intro data s t hp hlt h
  rw [exec_update_active data hp] at h
  injection h with h
  subst h
  have leftover (j : Nat) (hj : j < 64) (hfill : j < s.fill + data.length) :
      (absorb data s).buf[j] = (pending data s).getD j 0 := by
    rw [absorb_buf data s j hj (by omega), Nat.div_eq_of_lt hlt, Nat.mul_zero, Nat.zero_add]
  refine ⟨?_, fun j hj hfill => ?_, fun j hj hlen => ?_⟩
  · rw [State.emit_h, absorb_h, messageBlocks_of_lt (by rwa [length_pending]), hashBlocks_nil]
  · simp only [State.emit_buf]
    rw [leftover j hj (by omega), getD_pending, dif_pos hfill]
  · simp only [State.emit_buf]
    rw [leftover _ hj (by omega), getD_pending, dif_neg (by omega), Nat.add_sub_cancel_left]

/-- Settles O23: absorbing no byte gives the state back. -/
theorem emptyUpdateOnlyAnswers : Obligations.EmptyUpdateOnlyAnswers := by
  intro s hp
  rw [exec_update_active [] hp, absorb_nil]
  rfl

theorem compressCalls_update {s : State} (data : List Byte) (hp : s.phase = .active) :
    compressCalls (.update data) s = messageBlocks (pending data s) := by
  simp only [compressCalls, hp, absorbCalls_eq]

theorem compressCalls_final {s : State} (hp : s.phase = .active) : compressCalls .final s = padCalls s := by
  simp only [compressCalls, hp]

/-- A rejected command passes no block, and INIT never does. -/
theorem compressCalls_of_not_active (i : Instr) {s : State} (hp : s.phase ≠ .active) :
    compressCalls i s = [] := by
  unfold compressCalls
  split
  · exact absurd ‹_› hp
  · exact absurd ‹_› hp
  · rfl

/-- Settles O27: an accepted UPDATE or FINAL folds the listed blocks, a rejected one keeps H and lists none. -/
theorem hashChangesOnlyByCompress : Obligations.HashChangesOnlyByCompress := by
  intro i s t hi h
  obtain ⟨variant, rfl, -⟩ | ⟨data, rfl, hp, rfl⟩ | ⟨rfl, hp, -⟩ | ⟨-, hp, rfl⟩ | ⟨-, hp, rfl⟩ := exec_cases h
  · exact absurd rfl (hi variant)
  · rw [compressCalls_update data hp, State.emit_h, absorb_h]
  · rw [compressCalls_final hp, exec_final_h hp h]
  · rw [compressCalls_of_not_active i (by simp [hp]), State.emit_h, hashBlocks_nil]
  · rw [compressCalls_of_not_active i (by simp [hp]), State.emit_h, hashBlocks_nil]

/-- Settles O26: the listed blocks are the whole ones of fill + LEN pending bytes. -/
theorem updateCompressCount : Obligations.UpdateCompressCount := by
  intro data s
  obtain ⟨t, h⟩ := exec_total (.update data) s
  refine ⟨t, h, hashChangesOnlyByCompress _ s t (by simp) h, ?_⟩
  by_cases hp : s.phase = .active
  · rw [if_pos hp, compressCalls_update data hp, length_messageBlocks, length_pending]
  · rw [if_neg hp, compressCalls_of_not_active _ hp, List.length_nil]

end Sys2Proof.Machine
end

section
/-! FINAL: the padding FSM state by state, and the digest at its two lengths (43_finalize.md rules R85 and
R91). -/

namespace Sys2Proof.Machine

/-- Settles O31: below the spill F_SPILL is skipped and the sixth transition stays in done. -/
theorem paddingFsmComputesFinal : Obligations.PaddingFsmComputesFinal := by
  intro s hp
  refine ⟨_, exec_final_active hp, ?_⟩
  by_cases hspill : Config.spillFill ≤ s.fill
  · simp only [Function.iterate_succ_apply, Function.iterate_zero_apply, fsmStep, padMark_fill, pad,
      if_pos hspill]
  · simp only [Function.iterate_succ_apply, Function.iterate_zero_apply, fsmStep, padMark_fill, pad,
      if_neg hspill]

/-- Settles O29: 28 bytes are exactly the first seven words of the serialisation, 32 bytes all of it. -/
theorem sha224LeavesOutTheEighthWord : Obligations.Sha224LeavesOutTheEighthWord := by
  refine fun s => ⟨fun hlen => ?_, fun hlen => ?_⟩
  · rw [digest, hlen, hashBytes_eq]
    exact List.take_left' (by simp only [List.length_append, length_be32Bytes]; rfl)
  · rw [digest, hlen, ← hashBytes_eq]
    exact List.take_of_length_le (length_hashBytes s.h).le

end Sys2Proof.Machine
end

section
/-! Steps without a whole command: waiting, hanging and hardware reset (60_exceptions.md rule R108,
70_reset_and_hazards.md rules R109, R110 and R113). -/

namespace Sys2Proof.Machine

/-- Settles O46. -/
theorem stepRunsTheDecodedCommand : Obligations.StepRunsTheDecodedCommand :=
  fun _ _ _ h => step_of_command h

theorem step_of_short {s : State} (h : s.commands.length < 4) : step s = awaitHost .waitsForHeader s := by
  rw [step, decode_of_lt h]

/-- A step on an UPDATE header without its whole payload waits for the rest of it. -/
theorem step_of_shortPayload {s : State} {hdr : Word} {sent : List Byte} (hhdr : hdr.toNat / 2 ^ 24 = 2)
    (hlt : sent.length < hdr.toNat % 2 ^ 24) (hs : s.commands = be32Bytes hdr ++ sent) :
    step s = awaitHost .waitsForPayload s := by
  have hopc : headerOpc hdr = 0x02 := BitVec.eq_of_toNat_eq (by rw [headerOpc_toNat, hhdr]; rfl)
  rw [step, hs, decode_shortPayload hopc (by rwa [headerArg_toNat])]

theorem awaitHost_hangs {s : State} (stuck : Fault) (hlater : s.laterCommands = []) (hne : s.commands ≠ []) :
    awaitHost stuck s = .fault stuck := by
  obtain ⟨next, later, hl, -⟩ | ⟨-, hc, -⟩ | ⟨-, -, h⟩ := awaitHost_cases stuck s
  · rw [hlater] at hl
    cases hl
  · exact absurd hc hne
  · exact h

/-- Settles O47. -/
theorem idleEngineChangesNothing : Obligations.IdleEngineChangesNothing := by
  intro s hcommands hlater
  rw [step_of_short (by simp [hcommands])]
  simp only [awaitHost, hcommands, hlater]

/-- Settles O48. -/
theorem partialCommandHangs : Obligations.PartialCommandHangs := by
  refine fun s hlater => ⟨fun hpos hlt => ?_, fun hdr sent hhdr hlt hs => ?_⟩
  · rw [step_of_short hlt, awaitHost_hangs _ hlater (List.ne_nil_of_length_pos hpos)]
  · rw [step_of_shortPayload hhdr hlt hs, awaitHost_hangs _ hlater (by simp [hs, be32Bytes])]

/-- The closed response stream stays in the observation (R120). -/
theorem hardwareReset_observation (next : List Byte) (later : List (List Byte)) (s : State) :
    (hardwareReset next later s).observation = s.observation := by
  simp [State.observation]

/-- Settles O49: both forms of a partly delivered command await the host, who applies the reset. -/
theorem hardwareResetDropsAPartialCommand : Obligations.HardwareResetDropsAPartialCommand := by
  intro s next later hlater hpartial
  have hstep : step s = .next (hardwareReset next later s) := by
    obtain hlt | ⟨hdr, sent, hhdr, hlt, hs⟩ := hpartial
    · rw [step_of_short hlt, awaitHost, hlater]
    · rw [step_of_shortPayload hhdr hlt hs, awaitHost, hlater]
  exact ⟨_, hstep, hardwareReset_phase next later s, hardwareReset_observation next later s,
    hardwareReset_responses next later s, hardwareReset_commands next later s,
    hardwareReset_laterCommands next later s⟩

end Sys2Proof.Machine
end

section
/-! Several engines (60_exceptions.md rule R106). -/

namespace Sys2Proof.Machine

/-- A platform's step is one engine's step, written back in that engine's place. -/
theorem stepEngine_eq_next_iff {n : Nat} {p q : Platform n} {k : Fin n} :
    p.stepEngine k = .next q ↔ ∃ s, step p[k] = .next s ∧ q = p.set k s := by
  rw [Platform.stepEngine]
  cases step p[k] <;> simp [eq_comm]

theorem getElem_set_of_ne {n : Nat} (p : Platform n) {j k : Fin n} (s : State) (h : j ≠ k) :
    (p.set k s)[j] = p[j] :=
  Vector.getElem_set_ne k.isLt j.isLt (fun hv => h (Fin.ext hv.symm))

/-- Settles O52: each engine reads and writes its own place only. -/
theorem enginesDoNotAffectEachOther : Obligations.EnginesDoNotAffectEachOther := by
  intro n p q k h
  obtain ⟨s, hs, rfl⟩ := stepEngine_eq_next_iff.mp h
  refine ⟨by simpa using hs, fun j hj => getElem_set_of_ne p s hj, fun j r hj hr => ?_⟩
  obtain ⟨u, hu, rfl⟩ := stepEngine_eq_next_iff.mp hr
  rw [getElem_set_of_ne p s hj] at hu
  refine ⟨p.set j u, stepEngine_eq_next_iff.mpr ⟨u, hu, rfl⟩, stepEngine_eq_next_iff.mpr ⟨s, ?_, ?_⟩⟩
  · rw [getElem_set_of_ne p u hj.symm, hs]
  · exact Vector.set_comm s u (fun hv => hj (Fin.ext hv.symm))

end Sys2Proof.Machine
end

section
/-! What a command can see of the registers. Two states with the same visible Context answer alike, whatever
their streams and their unspecified values are (10_state.md rules R23 and R30, 41_init.md rule R75). -/

namespace Sys2Proof.Machine

/-- The register part of `SameSpecified`, which leaves the streams out. -/
structure SameContext (s t : State) : Prop where
  phase : s.phase = t.phase
  h : s.phase = .active → s.h = t.h
  totalLen : s.phase = .active → s.totalLen = t.totalLen
  digestLen : s.phase = .active → s.digestLen = t.digestLen
  buf : s.phase = .active → ∀ (j : Nat) (_ : j < 64), j < s.fill → s.buf[j] = t.buf[j]

theorem sameSpecified_iff {s t : State} :
    SameSpecified s t ↔ SameContext s t ∧ s.commands = t.commands ∧ s.laterCommands = t.laterCommands ∧
      s.responses = t.responses ∧ s.earlierResponses = t.earlierResponses := by
  constructor
  · rintro ⟨phase, commands, later, responses, earlier, h, totalLen, digestLen, buf⟩
    exact ⟨⟨phase, h, totalLen, digestLen, buf⟩, commands, later, responses, earlier⟩
  · rintro ⟨⟨phase, h, totalLen, digestLen, buf⟩, commands, later, responses, earlier⟩
    exact ⟨phase, commands, later, responses, earlier, h, totalLen, digestLen, buf⟩

theorem SameContext.refl (s : State) : SameContext s s :=
  ⟨rfl, fun _ => rfl, fun _ => rfl, fun _ => rfl, fun _ _ _ _ => rfl⟩

/-- Outside a message PHASE alone is visible. -/
theorem SameContext.of_not_active {s t : State} (hphase : s.phase = t.phase) (hs : s.phase ≠ .active) :
    SameContext s t :=
  ⟨hphase, fun h => absurd h hs, fun h => absurd h hs, fun h => absurd h hs, fun h => absurd h hs⟩

/-- The streams are no part of the Context. -/
theorem SameContext.of_registers {s t s' t' : State} (hst : SameContext s t)
    (hs : s'.phase = s.phase ∧ s'.h = s.h ∧ s'.totalLen = s.totalLen ∧ s'.digestLen = s.digestLen ∧
      s'.buf = s.buf)
    (ht : t'.phase = t.phase ∧ t'.h = t.h ∧ t'.totalLen = t.totalLen ∧ t'.digestLen = t.digestLen ∧
      t'.buf = t.buf) :
    SameContext s' t' := by
  cases s
  cases t
  cases s'
  cases t'
  obtain ⟨rfl, rfl, rfl, rfl, rfl⟩ := hs
  obtain ⟨rfl, rfl, rfl, rfl, rfl⟩ := ht
  exact ⟨hst.phase, hst.h, hst.totalLen, hst.digestLen, hst.buf⟩

theorem SameContext.emit {s t : State} (hst : SameContext s t) (bs cs : List Byte) :
    SameContext (s.emit bs) (t.emit cs) :=
  hst.of_registers (by simp) (by simp)

theorem sameContext_emit (s : State) (bs : List Byte) : SameContext s (s.emit bs) :=
  (SameContext.refl s).of_registers (by simp) (by simp)

theorem SameContext.setCommands {s t : State} (hst : SameContext s t) (bs cs : List Byte) :
    SameContext (s.setCommands bs) (t.setCommands cs) :=
  hst.of_registers (by simp) (by simp)

section
variable {s t : State} (hst : SameContext s t) (hp : s.phase = .active)
include hst hp

theorem SameContext.fill : s.fill = t.fill := by rw [State.fill, State.fill, hst.totalLen hp]

theorem SameContext.take_fill_buf : s.buf.toList.take s.fill = t.buf.toList.take t.fill := by
  apply List.ext_getElem
  · simp [hst.fill hp]
  · intro j hj _
    rw [List.length_take, Vector.length_toList] at hj
    simpa using hst.buf hp j (by omega) (by omega)

theorem SameContext.pending (data : List Byte) : pending data s = pending data t := by
  rw [Machine.pending, Machine.pending, hst.take_fill_buf hp]

theorem SameContext.digest_pad : digest (pad s) = digest (pad t) := by
  have htail : paddedTail s = paddedTail t := by
    rw [paddedTail, paddedTail, hst.take_fill_buf hp, hst.fill hp, bitLength, bitLength, hst.totalLen hp]
  obtain ⟨-, hs, -⟩ := pad_frame s
  obtain ⟨-, ht, -⟩ := pad_frame t
  rw [digest, digest, pad_h, pad_h, padCalls_eq, padCalls_eq, htail, hs, ht, hst.h hp, hst.digestLen hp]

theorem SameContext.absorb (data : List Byte) : SameContext (absorb data s) (absorb data t) where
  phase := by
    obtain ⟨-, -, hs, -⟩ := absorb_frame data s
    obtain ⟨-, -, ht, -⟩ := absorb_frame data t
    rw [hs, ht, hst.phase]
  h := fun _ => by rw [absorb_h, absorb_h, hst.h hp, hst.pending hp]
  totalLen := fun _ => by
    obtain ⟨hs, -⟩ := absorb_frame data s
    obtain ⟨ht, -⟩ := absorb_frame data t
    rw [hs, ht, hst.totalLen hp]
  digestLen := fun _ => by
    obtain ⟨-, hs, -⟩ := absorb_frame data s
    obtain ⟨-, ht, -⟩ := absorb_frame data t
    rw [hs, ht, hst.digestLen hp]
  buf := fun _ j hj hfill => by
    rw [absorb_fill] at hfill
    have hfill' := hfill
    rw [hst.fill hp] at hfill'
    rw [absorb_buf data s j hj hfill, absorb_buf data t j hj hfill', hst.pending hp, hst.fill hp]

end

theorem SameContext.trans {s t u : State} (hst : SameContext s t) (htu : SameContext t u) : SameContext s u where
  phase := hst.phase.trans htu.phase
  h := fun hp => (hst.h hp).trans (htu.h (hst.phase ▸ hp))
  totalLen := fun hp => (hst.totalLen hp).trans (htu.totalLen (hst.phase ▸ hp))
  digestLen := fun hp => (hst.digestLen hp).trans (htu.digestLen (hst.phase ▸ hp))
  buf := fun hp j hj hfill =>
    (hst.buf hp j hj hfill).trans (htu.buf (hst.phase ▸ hp) j hj (hst.fill hp ▸ hfill))

/-- Two states answer a command alike: with next states of the same Context and the same response. -/
def AnswerAlike (i : Instr) (s t : State) : Prop :=
  ∃ s' t' r, exec i s = .next s' ∧ exec i t = .next t' ∧ SameContext s' t' ∧
    s'.responses = s.responses ++ r ∧ t'.responses = t.responses ++ r

/-- After INIT nothing of the Context before it is visible, with no premise on it (R75): it writes every
register but BUF, of which no byte is valid. -/
theorem answerAlike_init (variant : BitVec 24) (s t : State) : AnswerAlike (.init variant) s t := by
  refine ⟨_, _, [0x00], exec_init variant s, exec_init variant t, SameContext.emit ?_ _ _,
    exec_init_responses (exec_init variant s), exec_init_responses (exec_init variant t)⟩
  refine ⟨by simp, fun _ => by simp, fun _ => by simp, fun _ => by simp, fun _ j _ hfill => ?_⟩
  rw [startMessage_fill] at hfill
  exact absurd hfill (Nat.not_lt_zero j)

/-- UPDATE and FINAL look at PHASE first, and at the other registers only where they are specified. -/
theorem SameContext.answerAlike {s t : State} (hst : SameContext s t) (i : Instr) : AnswerAlike i s t := by
  have rejected (hi : i = .final ∨ ∃ data, i = .update data) (hp : s.phase ≠ .active) : AnswerAlike i s t := by
    cases hphase : s.phase with
    | uninit =>
      exact ⟨_, _, _, exec_uninit hi hphase, exec_uninit hi (hst.phase ▸ hphase), hst.emit _ _,
        s.emit_responses _, t.emit_responses _⟩
    | active => exact absurd hphase hp
    | finalized =>
      exact ⟨_, _, _, exec_finalized hi hphase, exec_finalized hi (hst.phase ▸ hphase), hst.emit _ _,
        s.emit_responses _, t.emit_responses _⟩
  cases i with
  | init variant => exact answerAlike_init variant s t
  | update data =>
    by_cases hp : s.phase = .active
    · have hs := exec_update_active data hp
      have ht := exec_update_active data (hst.phase ▸ hp)
      exact ⟨_, _, _, hs, ht, (hst.absorb hp data).emit _ _, exec_update_responses hp hs,
        exec_update_responses (hst.phase ▸ hp) ht⟩
    · exact rejected (.inr ⟨data, rfl⟩) hp
  | final =>
    by_cases hp : s.phase = .active
    · have hs := exec_final_active hp
      have ht := exec_final_active (hst.phase ▸ hp)
      have hsp := exec_final_phase_active hp hs
      have htp := exec_final_phase_active (hst.phase ▸ hp) ht
      refine ⟨_, _, _, hs, ht, .of_not_active (hsp.trans htp.symm) (by simp [hsp]), exec_final_responses hp hs, ?_⟩
      rw [hst.digest_pad hp]
      exact exec_final_responses (hst.phase ▸ hp) ht
    · exact rejected (.inl rfl) hp

theorem SameSpecified.exec {s t : State} (hst : SameSpecified s t) (i : Instr) :
    ∃ s' t', exec i s = .next s' ∧ exec i t = .next t' ∧ SameSpecified s' t' := by
  obtain ⟨hcontext, hcommands, hlater, hresponses, hearlier⟩ := sameSpecified_iff.mp hst
  obtain ⟨s', t', r, hs, ht, hcontext', hrs, hrt⟩ := hcontext.answerAlike i
  obtain ⟨-, hscommands, hslater, hsearlier⟩ := exec_streams hs
  obtain ⟨-, htcommands, htlater, htearlier⟩ := exec_streams ht
  refine ⟨s', t', hs, ht, sameSpecified_iff.mpr ⟨hcontext', ?_, ?_, ?_, ?_⟩⟩
  · rw [hscommands, htcommands, hcommands]
  · rw [hslater, htlater, hlater]
  · rw [hrs, hrt, hresponses]
  · rw [hsearlier, htearlier, hearlier]

theorem SameSpecified.setCommands {s t : State} (hst : SameSpecified s t) (bs : List Byte) :
    SameSpecified (s.setCommands bs) (t.setCommands bs) := by
  obtain ⟨hcontext, -, hlater, hresponses, hearlier⟩ := sameSpecified_iff.mp hst
  exact sameSpecified_iff.mpr ⟨hcontext.setCommands bs bs, rfl, hlater, hresponses, hearlier⟩

theorem SameSpecified.emit {s t : State} (hst : SameSpecified s t) (bs : List Byte) :
    SameSpecified (s.emit bs) (t.emit bs) := by
  obtain ⟨hcontext, hcommands, hlater, hresponses, hearlier⟩ := sameSpecified_iff.mp hst
  refine sameSpecified_iff.mpr ⟨hcontext.emit bs bs, hcommands, hlater, ?_, hearlier⟩
  rw [State.emit_responses, State.emit_responses, hresponses]

theorem SameSpecified.hardwareReset {s t : State} (hst : SameSpecified s t) (next : List Byte)
    (later : List (List Byte)) : SameSpecified (hardwareReset next later s) (hardwareReset next later t) := by
  refine sameSpecified_iff.mpr ⟨.of_not_active rfl (by simp), rfl, rfl, rfl, ?_⟩
  rw [hardwareReset_earlierResponses, hardwareReset_earlierResponses, hst.responses, hst.earlierResponses]

/-- Whether the engine waits, is reset or hangs depends on the command streams only. -/
theorem SameSpecified.awaitHost {s t : State} (hst : SameSpecified s t) (stuck : Fault) :
    (∃ s' t', awaitHost stuck s = .next s' ∧ awaitHost stuck t = .next t' ∧ SameSpecified s' t') ∨
    (∃ f, awaitHost stuck s = .fault f ∧ awaitHost stuck t = .fault f) := by
  simp only [Machine.awaitHost, ← hst.commands, ← hst.laterCommands]
  rcases s.laterCommands with _ | ⟨next, later⟩
  · rcases s.commands with _ | ⟨b, bs⟩
    · exact .inl ⟨s, t, rfl, rfl, hst⟩
    · exact .inr ⟨stuck, rfl, rfl⟩
  · exact .inl ⟨_, _, rfl, rfl, hst.hardwareReset next later⟩

/-- Settles O50: the two streams decode alike, and in each case the two states are answered alike. -/
theorem unspecifiedValuesAreNeverSeen : Obligations.UnspecifiedValuesAreNeverSeen := by
  intro s t hst
  rw [step, step, ← hst.commands]
  cases decode s.commands with
  | command i rest => exact .inl ((hst.setCommands rest).exec i)
  | reserved why rest => exact .inl ⟨_, _, rfl, rfl, (hst.setCommands rest).emit _⟩
  | shortHeader => exact hst.awaitHost .waitsForHeader
  | shortPayload len => exact hst.awaitHost .waitsForPayload

theorem runCommands_cons {i : Instr} {is : List Instr} {s t : State} (h : exec i s = .next t) :
    runCommands (i :: is) s = runCommands is t := by
  rw [runCommands, h]

/-- Two states answer a sequence of commands with the same response bytes. -/
def RunAlike (is : List Instr) (s t : State) : Prop :=
  ∃ s' t' r, runCommands is s = .next s' ∧ runCommands is t = .next t' ∧
    s'.responses = s.responses ++ r ∧ t'.responses = t.responses ++ r

theorem AnswerAlike.runAlike_cons {i : Instr} {is : List Instr} {s t : State} (h : AnswerAlike i s t)
    (his : ∀ s' t', SameContext s' t' → RunAlike is s' t') : RunAlike (i :: is) s t := by
  obtain ⟨s1, t1, r1, hs, ht, hst, hrs, hrt⟩ := h
  obtain ⟨s2, t2, r2, hs2, ht2, hrs2, hrt2⟩ := his s1 t1 hst
  refine ⟨s2, t2, r1 ++ r2, ?_, ?_, ?_, ?_⟩
  · rw [runCommands_cons hs, hs2]
  · rw [runCommands_cons ht, ht2]
  · rw [hrs2, hrs, List.append_assoc]
  · rw [hrt2, hrt, List.append_assoc]

theorem SameContext.runAlike {s t : State} (hst : SameContext s t) (is : List Instr) : RunAlike is s t := by
  induction is generalizing s t with
  | nil => exact ⟨s, t, [], rfl, rfl, (List.append_nil _).symm, (List.append_nil _).symm⟩
  | cons i is ih => exact (hst.answerAlike i).runAlike_cons fun _ _ => ih

/-- Settles O18: INIT gives any two states the same Context, and from there they run alike. -/
theorem initLeavesNoResidue : Obligations.InitLeavesNoResidue :=
  fun variant is s t => (answerAlike_init variant s t).runAlike_cons fun _ _ hst => hst.runAlike is

end Sys2Proof.Machine
end

section
/-! Chunk invariance: absorbing in pieces, down to single bytes, leaves the same Context (42_update.md rule
R81), and so does splitting a long update into commands (30_encoding.md rule R56). -/

namespace Sys2Proof.Machine

open Sys2Proof.Assembler

theorem absorb_phase {s : State} (data : List Byte) (hp : s.phase = .active) : (absorb data s).phase = .active := by
  obtain ⟨-, -, hphase, -⟩ := absorb_frame data s
  rw [hphase, hp]

/-- What is pending after `a` is what was pending of `a ++ b` without the blocks already compressed. -/
theorem pending_absorb_eq_drop (a b : List Byte) (s : State) :
    pending b (absorb a s) = (pending (a ++ b) s).drop (64 * ((s.fill + a.length) / 64)) := by
  have hle : 64 * ((s.fill + a.length) / 64) ≤ (pending a s).length := by rw [length_pending]; omega
  rw [pending_absorb, pending_append, List.drop_append_of_le_length hle, length_pending]

/-- The blocks of a payload in two pieces, in order (R81). -/
theorem messageBlocks_pending_append (a b : List Byte) (s : State) :
    messageBlocks (pending (a ++ b) s) = messageBlocks (pending a s) ++ messageBlocks (pending b (absorb a s)) := by
  rw [pending_append, messageBlocks_append_leftover, pending_absorb]

theorem absorb_append (a b : List Byte) (s : State) :
    SameContext (absorb (a ++ b) s) (absorb b (absorb a s)) := by
  obtain ⟨total1, digest1, phase1, -⟩ := absorb_frame (a ++ b) s
  obtain ⟨total2, digest2, phase2, -⟩ := absorb_frame a s
  obtain ⟨total3, digest3, phase3, -⟩ := absorb_frame b (absorb a s)
  refine ⟨?_, fun _ => ?_, fun _ => ?_, fun _ => ?_, fun _ j hj hfill => ?_⟩
  · rw [phase1, phase3, phase2]
  · rw [absorb_h, absorb_h, absorb_h, messageBlocks_pending_append, hashBlocks_append]
  · rw [total1, total3, total2, List.length_append, BitVec.ofNat_add, BitVec.add_assoc]
  · rw [digest1, digest3, digest2]
  · rw [absorb_fill] at hfill
    have hlen : (a ++ b).length = a.length + b.length := List.length_append
    have hfillA : (absorb a s).fill = (s.fill + a.length) % 64 := absorb_fill a s
    rw [absorb_buf _ _ j hj hfill, absorb_buf _ _ j hj (by omega), pending_absorb_eq_drop, getD_drop]
    congr 1
    omega

/-- Settles O24: the status byte between the two pieces is no part of the Context. -/
theorem chunksDoNotMatter : Obligations.ChunksDoNotMatter := by
  intro a b s hp
  have hpa := absorb_phase a hp
  have hemit := sameContext_emit (absorb a s) [Status.ok.code]
  have hpm : ((absorb a s).emit [Status.ok.code]).phase = .active := hpa
  obtain ⟨phase, h, totalLen, digestLen, buf⟩ :=
    ((absorb_append a b s).trans (hemit.absorb hpa b)).emit [Status.ok.code] [Status.ok.code]
  have hone : ((absorb (a ++ b) s).emit [Status.ok.code]).phase = .active := absorb_phase (a ++ b) hp
  refine ⟨_, _, _, exec_update_active (a ++ b) hp, exec_update_active a hp, exec_update_active b hpm,
    h hone, totalLen hone, digestLen hone, phase, buf hone, ?_⟩
  rw [compressCalls_update _ hp, compressCalls_update _ hp, compressCalls_update _ hpm, ← hemit.pending hpa,
    messageBlocks_pending_append]

theorem countBytes_writeBuf (s : State) (n start : Nat) (bs : List Byte) :
    (s.countBytes n).writeBuf start bs = (s.writeBuf start bs).countBytes n := by
  cases s
  rfl

theorem absorbAligned_nil (s : State) : absorbAligned [] s = s := by
  rw [absorbAligned_eq, messageBlocks_of_lt (by decide), hashBlocks_nil, List.drop_nil, State.writeBuf,
    overwrite_nil]
  rfl

/-- The byte-at-a-time form is an absorb of one byte, which fills the buffer exactly at fill 63. -/
theorem absorb_singleton (x : Byte) (s : State) : absorb [x] s = absorbByte x s := by
  have hlt := s.fill_lt
  have hone : [x].length = 1 := rfl
  obtain ⟨hn, -, h⟩ | ⟨hn, -, h⟩ | ⟨h0, h⟩ := absorb_cases [x] s
  · rw [h, absorbByte, if_neg (by omega), hone, countBytes_writeBuf]
  · have hfill : 64 - s.fill = 1 := by omega
    rw [h, absorbByte, if_pos (by omega), hfill, List.take_of_length_le hone.le, List.drop_of_length_le hone.le,
      absorbAligned_nil, hone, countBytes_writeBuf, State.countBytes_buf, State.writeBuf_buf]
  · rw [h, absorbByte, if_neg (by omega), h0, absorbAligned_eq, messageBlocks_of_lt (by simp), hashBlocks_nil, hone,
      ← countBytes_writeBuf]
    rfl

theorem absorbByte_fold {s : State} (data : List Byte) (hp : s.phase = .active) :
    SameContext (absorb data s) (data.foldl (fun s x => absorbByte x s) s) := by
  induction data generalizing s with
  | nil =>
    rw [absorb_nil]
    exact .refl s
  | cons x xs ih =>
    have happend := absorb_append [x] xs s
    rw [absorb_singleton] at happend
    exact happend.trans (ih (absorb_singleton x s ▸ absorb_phase [x] hp))

/-- `absorbByte` writes H, BUF and TOTAL_LEN only, as the absorb of one byte does. -/
theorem absorbByte_fold_streams (data : List Byte) (s : State) :
    (data.foldl (fun s x => absorbByte x s) s).commands = s.commands ∧
    (data.foldl (fun s x => absorbByte x s) s).laterCommands = s.laterCommands ∧
    (data.foldl (fun s x => absorbByte x s) s).responses = s.responses ∧
    (data.foldl (fun s x => absorbByte x s) s).earlierResponses = s.earlierResponses := by
  induction data generalizing s with
  | nil => exact ⟨rfl, rfl, rfl, rfl⟩
  | cons x xs ih =>
    obtain ⟨-, -, -, hcommands, hlater, hresponses, hearlier⟩ := absorb_frame [x] s
    rw [absorb_singleton] at hcommands hlater hresponses hearlier
    obtain ⟨ihcommands, ihlater, ihresponses, ihearlier⟩ := ih (absorbByte x s)
    exact ⟨ihcommands.trans hcommands, ihlater.trans hlater, ihresponses.trans hresponses,
      ihearlier.trans hearlier⟩

/-- Settles O25: absorbing one byte at a time is chunk invariance with pieces of one byte. -/
theorem updateIsAByteFold : Obligations.UpdateIsAByteFold := by
  intro data s hp
  obtain ⟨-, -, -, hcommands, hlater, hresponses, hearlier⟩ := absorb_frame data s
  obtain ⟨fcommands, flater, fresponses, fearlier⟩ := absorbByte_fold_streams data s
  exact sameSpecified_iff.mpr ⟨absorbByte_fold data hp, hcommands.trans fcommands.symm, hlater.trans flater.symm,
    hresponses.trans fresponses.symm, hearlier.trans fearlier.symm⟩

/-- UPDATE after UPDATE of the pieces of a payload answers one 00 each and leaves the Context of one absorb. -/
theorem runCommands_updates {s : State} (chunks : List (List Byte)) (hp : s.phase = .active) : ∃ t,
    runCommands (chunks.map .update) s = .next t ∧ SameContext (absorb chunks.flatten s) t ∧
    t.responses = s.responses ++ List.replicate chunks.length 0x00 ∧ t.commands = s.commands ∧
    t.laterCommands = s.laterCommands ∧ t.earlierResponses = s.earlierResponses := by
  induction chunks generalizing s with
  | nil =>
    refine ⟨s, rfl, ?_, (List.append_nil _).symm, rfl, rfl, rfl⟩
    rw [List.flatten_nil, absorb_nil]
    exact .refl s
  | cons c cs ih =>
    have hpc := absorb_phase c hp
    have hexec := exec_update_active c hp
    have hemit := sameContext_emit (absorb c s) [Status.ok.code]
    obtain ⟨-, hcommands, hlater, hearlier⟩ := exec_streams hexec
    obtain ⟨t, hrun, hsame, hresponses, tcommands, tlater, tearlier⟩ :=
      ih (s := (absorb c s).emit [Status.ok.code]) hpc
    refine ⟨t, ?_, ?_, ?_, tcommands.trans hcommands, tlater.trans hlater, tearlier.trans hearlier⟩
    · rw [List.map_cons, runCommands_cons hexec, hrun]
    · exact (absorb_append c cs.flatten s).trans ((hemit.absorb hpc cs.flatten).trans hsame)
    · rw [hresponses, exec_update_responses hp hexec, List.length_cons, List.replicate_succ, List.append_assoc]
      rfl

theorem flatten_splitBytes (fuel : Nat) (bytes : List Byte) : (splitBytes fuel bytes).flatten = bytes := by
  induction fuel generalizing bytes with
  | zero => simp [splitBytes]
  | succ fuel ih =>
    rw [splitBytes]
    split
    · exact List.flatten_singleton
    · rw [List.flatten_cons, ih, List.take_append_drop]

/-- With fuel for all the whole pieces, no piece is longer than a header can express. -/
theorem length_le_of_mem_splitBytes {fuel : Nat} {bytes c : List Byte}
    (hfuel : bytes.length ≤ Config.maxUpdateLen * (fuel + 1)) (hc : c ∈ splitBytes fuel bytes) :
    c.length ≤ Config.maxUpdateLen := by
  induction fuel generalizing bytes with
  | zero =>
    obtain rfl : c = bytes := List.mem_singleton.mp hc
    omega
  | succ fuel ih =>
    rw [splitBytes] at hc
    split at hc
    · obtain rfl : c = bytes := List.mem_singleton.mp hc
      assumption
    · obtain rfl | hc := List.mem_cons.mp hc
      · exact List.length_take_le _ _
      · rw [Nat.mul_succ] at hfuel
        exact ih (by rw [List.length_drop]; omega) hc

theorem updateCommands_wf {bytes : List Byte} {i : Instr} (hi : i ∈ updateCommands bytes) : i.wf = true := by
  obtain ⟨c, hc, rfl⟩ := List.mem_map.mp hi
  rw [Instr.wf, decide_eq_true_iff]
  refine length_le_of_mem_splitBytes ?_ hc
  have hpos : 0 < Config.maxUpdateLen := by decide
  exact (Nat.lt_mul_div_succ bytes.length hpos).le

theorem flatMap_payload_updateCommands (bytes : List Byte) : (updateCommands bytes).flatMap payload = bytes := by
  rw [updateCommands, List.flatMap_map]
  exact List.flatMap_id'.trans (flatten_splitBytes _ bytes)

/-- Settles O53: the commands carry the pieces of `splitBytes`, to which chunk invariance applies. -/
theorem splitUpdateIsOneUpdate : Obligations.SplitUpdateIsOneUpdate := by
  refine fun bytes => ⟨fun i => updateCommands_wf, flatMap_payload_updateCommands bytes, fun s hp => ?_⟩
  have hexec := exec_update_active bytes hp
  obtain ⟨-, hcommands, hlater, hearlier⟩ := exec_streams hexec
  obtain ⟨many, hrun, hsame, hresponses, mcommands, mlater, mearlier⟩ :=
    runCommands_updates (splitBytes (bytes.length / Config.maxUpdateLen) bytes) hp
  rw [flatten_splitBytes] at hsame
  refine ⟨_, many, hexec, hrun, sameSpecified_iff.mpr ⟨?_, hcommands.trans mcommands.symm,
    hlater.trans mlater.symm, rfl, hearlier.trans mearlier.symm⟩, ?_⟩
  · exact hsame.of_registers (by simp) (by simp)
  · rw [hresponses, updateCommands, List.length_map]

end Sys2Proof.Machine
end

section
/-! The message that the Context holds: INIT starts it, UPDATE extends it, FINAL finishes it, and so every step
keeps the invariant (10_state.md rule R29, 42_update.md rule R82, 43_finalize.md rules R92 to R94). -/

namespace Sys2Proof.Machine

/-- The fill depends on the message length only: TOTAL_LEN's wrap at 2^64 is a multiple of 64 (R21). -/
theorem Absorbed.fill {v : Variant} {m : List Byte} {s : State} (h : Absorbed v m s) : s.fill = m.length % 64 := by
  rw [State.fill, h.count, BitVec.toNat_ofNat]
  exact Nat.mod_mod_of_dvd _ (by decide)

/-- The valid bytes of BUF are the message's bytes after its whole blocks. -/
theorem Absorbed.take_fill_buf {v : Variant} {m : List Byte} {s : State} (h : Absorbed v m s) :
    s.buf.toList.take s.fill = m.drop (64 * (m.length / 64)) := by
  have hfill := h.fill
  apply List.ext_getElem
  · simp only [List.length_take, Vector.length_toList, List.length_drop]
    omega
  · intro j hj _
    simp only [List.length_take, Vector.length_toList] at hj
    have hlt : 64 * (m.length / 64) + j < m.length := by omega
    simp only [List.getElem_take, Vector.getElem_toList, List.getElem_drop]
    rw [h.leftover j (by omega) (by omega), List.getD_eq_getElem _ _ hlt]

/-- Hence the pending bytes are the extended message's bytes after the whole blocks of `m`. -/
theorem Absorbed.pending {v : Variant} {m : List Byte} {s : State} (h : Absorbed v m s) (data : List Byte) :
    pending data s = m.drop (64 * (m.length / 64)) ++ data := by
  rw [Machine.pending, h.take_fill_buf]

/-- Absorbed reads four registers only. -/
theorem Absorbed.of_registers {v : Variant} {m : List Byte} {s t : State} (h : Absorbed v m s)
    (hh : t.h = s.h) (hbuf : t.buf = s.buf) (htotal : t.totalLen = s.totalLen) (hdigest : t.digestLen = s.digestLen) :
    Absorbed v m t := by
  refine ⟨hdigest.trans h.variant, htotal.trans h.count, hh.trans h.hash, fun j hj hlt => ?_⟩
  simp only [hbuf]
  exact h.leftover j hj hlt

theorem Absorbed.emit {v : Variant} {m : List Byte} {s : State} (h : Absorbed v m s) (bs : List Byte) :
    Absorbed v m (s.emit bs) := h.of_registers (by simp) (by simp) (by simp) (by simp)

theorem Absorbed.setCommands {v : Variant} {m : List Byte} {s : State} (h : Absorbed v m s) (bs : List Byte) :
    Absorbed v m (s.setCommands bs) := h.of_registers (by simp) (by simp) (by simp) (by simp)

theorem absorbed_startMessage (v : Variant) (s : State) : Absorbed v [] (startMessage v s) := by
  refine ⟨startMessage_digestLen v s, startMessage_totalLen v s, ?_, fun j _ hlt => ?_⟩
  · rw [startMessage_h, messageBlocks_of_lt (by decide), hashBlocks_nil]
  · exact absurd hlt (Nat.not_lt_zero j)

theorem Absorbed.absorb {v : Variant} {m : List Byte} {s : State} (h : Absorbed v m s) (data : List Byte) :
    Absorbed v (m ++ data) (absorb data s) := by
  obtain ⟨htotal, hdigest, -⟩ := absorb_frame data s
  have hfill := h.fill
  refine ⟨hdigest.trans h.variant, ?_, ?_, fun j hj hlt => ?_⟩
  · rw [htotal, h.count, List.length_append, BitVec.ofNat_add]
  · rw [absorb_h, h.hash, h.pending, messageBlocks_append_leftover m data, hashBlocks_append]
  · rw [List.length_append] at hlt ⊢
    have hle : 64 * (m.length / 64) ≤ m.length := Nat.mul_div_le _ _
    rw [absorb_buf data s j hj (by omega), h.pending, ← List.drop_append_of_le_length hle, getD_drop]
    congr 1
    omega

theorem absorbed_of_exec_init {variant : BitVec 24} {s t : State} (h : exec (.init variant) s = .next t) :
    Absorbed (selectVariant (variantOperand variant)) [] t := by
  rw [exec_init] at h
  injection h with h
  rw [← h]
  exact (absorbed_startMessage _ s).emit _

theorem Absorbed.exec_update {v : Variant} {m data : List Byte} {s t : State} (h : Absorbed v m s)
    (hp : s.phase = .active) (ht : exec (.update data) s = .next t) : Absorbed v (m ++ data) t := by
  rw [exec_update_active data hp] at ht
  injection ht with ht
  rw [← ht]
  exact (h.absorb data).emit _

/-- Settles O42. -/
theorem updateExtendsTheMessage : Obligations.UpdateExtendsTheMessage :=
  ⟨fun _ _ _ => absorbed_of_exec_init, fun _ _ _ _ _ hp habs h =>
    ⟨(exec_update_phase h).trans hp, habs.exec_update hp h⟩⟩

/-- Pad completes the leftover to the padded message's last blocks: their zero count and the bit length, both
periodic, depend on the message length alone, so no bound on it is needed (R89, R94). -/
theorem Absorbed.messageBlocks_padded {v : Variant} {m : List Byte} {s : State} (h : Absorbed v m s) :
    messageBlocks (padded m) = messageBlocks m ++ padCalls s := by
  have hzeros : padZeros s.fill = padZeros m.length := by
    rw [padZeros, padZeros, h.fill, Nat.mod_mod]
  have hbits : bitLength s = BitVec.ofNat 64 (8 * m.length) := by
    rw [bitLength, h.count, Nat.mul_comm, BitVec.ofNat_mul]
    rfl
  rw [padCalls_eq, paddedTail, h.take_fill_buf, hzeros, hbits, padded, messageBlocks_append_leftover]

theorem Absorbed.exec_final {v : Variant} {m : List Byte} {s t : State} (h : Absorbed v m s)
    (hp : s.phase = .active) (ht : exec .final s = .next t) : Finished v m t := by
  have hhash := exec_final_h hp ht
  have hdigest := exec_keeps_digestLen (by simp) ht
  rw [exec_final_active hp] at ht
  injection ht with ht
  obtain ⟨-, -, -, -, ftotal, -⟩ := finish_frame (pad s)
  obtain ⟨ptotal, -⟩ := pad_frame s
  refine ⟨hdigest.trans h.variant, ?_, ?_⟩
  · rw [← ht, ftotal, ptotal, h.count]
  · rw [hhash, h.hash, h.messageBlocks_padded, hashBlocks_append]

theorem Absorbed.digest_pad {v : Variant} {m : List Byte} {s : State} (h : Absorbed v m s) :
    digest (pad s) = shaDigest v m := by
  obtain ⟨-, hdigest, -⟩ := pad_frame s
  rw [digest, pad_h, hdigest, h.variant, h.hash, shaDigest, h.messageBlocks_padded, hashBlocks_append]

theorem Absorbed.exec_final_responses {v : Variant} {m : List Byte} {s t : State} (h : Absorbed v m s)
    (hp : s.phase = .active) (ht : exec .final s = .next t) : t.responses = s.responses ++ 0x00 :: shaDigest v m := by
  rw [Machine.exec_final_responses hp ht, h.digest_pad]

/-- Settles O34. -/
theorem finalEmitsTheDigestOfTheMessage : Obligations.FinalEmitsTheDigestOfTheMessage := by
  intro v m s hp h _
  have hexec := exec_final_active hp
  exact ⟨_, hexec, h.exec_final_responses hp hexec, h.exec_final hp hexec⟩

/-- Settles O33: after UPDATE the Context holds m, whose blocks UPDATE has compressed and FINAL completes. -/
theorem compressCallsAreThePaddedBlocks : Obligations.CompressCallsAreThePaddedBlocks := by
  intro variant m s s1 s2 _ h1 h2
  obtain ⟨-, -, hp1⟩ := exec_init_empty_active h1
  have hp2 : s2.phase = .active := (exec_update_phase h2).trans hp1
  have habs1 := absorbed_of_exec_init h1
  have habs2 : Absorbed _ m s2 := habs1.exec_update hp1 h2
  have hfill := habs2.fill
  rw [compressCalls_update m hp1, compressCalls_final hp2]
  refine ⟨?_, ?_⟩
  · rw [habs1.pending, List.drop_nil, List.nil_append, habs2.messageBlocks_padded]
  · by_cases h55 : m.length % 64 ≤ 55
    · rw [if_pos h55, padCalls_of_fill_le (by omega)]
      rfl
    · rw [if_neg h55, padCalls_of_le_fill (by omega)]
      rfl

/-- Settles O32. -/
theorem paddedMessageIsWholeBlocks : Obligations.PaddedMessageIsWholeBlocks := by
  intro m
  have hlen : (padded m).length = m.length + 1 + padZeros m.length + 8 := by
    simp only [padded, List.length_append, List.length_cons, List.length_replicate, length_be64Bytes]
    omega
  have hzeros : padZeros m.length = (119 - m.length % 64) % 64 := rfl
  rw [length_messageBlocks, hlen]
  exact ⟨by omega, rfl, by omega, by omega⟩

/-! ## The invariant -/

/-- In which case of it a state meets the invariant. -/
theorem inv_iff (s : State) :
    s.Inv ↔ (s.phase = .active → ∃ v m, Absorbed v m s) ∧ (s.phase = .finalized → ∃ v m, Finished v m s) := by
  rw [State.Inv]
  cases s.phase <;> simp

theorem Finished.of_registers {v : Variant} {m : List Byte} {s t : State} (h : Finished v m s)
    (hh : t.h = s.h) (htotal : t.totalLen = s.totalLen) (hdigest : t.digestLen = s.digestLen) : Finished v m t :=
  ⟨hdigest.trans h.variant, htotal.trans h.count, hh.trans h.hash⟩

theorem inv_of_uninit {s : State} (hp : s.phase = .uninit) : s.Inv := by
  rw [State.Inv, hp]
  trivial

theorem inv_of_absorbed {v : Variant} {m : List Byte} {s : State} (hp : s.phase = .active) (h : Absorbed v m s) :
    s.Inv := by
  rw [State.Inv, hp]
  exact ⟨v, m, h⟩

theorem inv_of_finished {v : Variant} {m : List Byte} {s : State} (hp : s.phase = .finalized)
    (h : Finished v m s) : s.Inv := by
  rw [State.Inv, hp]
  exact ⟨v, m, h⟩

/-- The invariant is about the registers only. -/
theorem State.Inv.of_registers {s t : State} (h : s.Inv) (hphase : t.phase = s.phase) (hh : t.h = s.h)
    (hbuf : t.buf = s.buf) (htotal : t.totalLen = s.totalLen) (hdigest : t.digestLen = s.digestLen) : t.Inv := by
  obtain ⟨hactive, hfinalized⟩ := (inv_iff s).mp h
  refine (inv_iff t).mpr ⟨fun hp => ?_, fun hp => ?_⟩
  · obtain ⟨v, m, habs⟩ := hactive (hphase ▸ hp)
    exact ⟨v, m, habs.of_registers hh hbuf htotal hdigest⟩
  · obtain ⟨v, m, hfin⟩ := hfinalized (hphase ▸ hp)
    exact ⟨v, m, hfin.of_registers hh htotal hdigest⟩

theorem State.Inv.emit {s : State} (h : s.Inv) (bs : List Byte) : (s.emit bs).Inv :=
  h.of_registers (by simp) (by simp) (by simp) (by simp) (by simp)

theorem State.Inv.setCommands {s : State} (h : s.Inv) (bs : List Byte) : (s.setCommands bs).Inv :=
  h.of_registers (by simp) (by simp) (by simp) (by simp) (by simp)

/-- Every command keeps the invariant: INIT starts a message, UPDATE extends the absorbed one, FINAL finishes it,
and a rejected command writes no register. -/
theorem exec_keeps_inv {i : Instr} {s t : State} (h : s.Inv) (ht : exec i s = .next t) : t.Inv := by
  obtain ⟨hactive, -⟩ := (inv_iff s).mp h
  obtain ⟨variant, rfl, -⟩ | ⟨data, rfl, hp, -⟩ | ⟨rfl, hp, -⟩ | ⟨-, -, rfl⟩ | ⟨-, -, rfl⟩ := exec_cases ht
  · obtain ⟨-, -, hphase⟩ := exec_init_empty_active ht
    exact inv_of_absorbed hphase (absorbed_of_exec_init ht)
  · obtain ⟨v, m, habs⟩ := hactive hp
    exact inv_of_absorbed ((exec_update_phase ht).trans hp) (habs.exec_update hp ht)
  · obtain ⟨v, m, habs⟩ := hactive hp
    exact inv_of_finished (exec_final_phase_active hp ht) (habs.exec_final hp ht)
  · exact h.emit _
  · exact h.emit _

/-- Settles O44: a step runs a command, answers a reserved header, is reset or waits. -/
theorem stepKeepsInv : Obligations.StepKeepsInv := by
  intro s t h ht
  obtain ⟨i, rest, -, hexec⟩ | ⟨why, rest, -, rfl⟩ | ⟨next, later, -, rfl⟩ | ⟨-, -, rfl⟩ := step_cases ht
  · exact exec_keeps_inv (h.setCommands rest) hexec
  · exact (h.setCommands rest).emit _
  · exact inv_of_uninit (hardwareReset_phase next later s)
  · exact h

/-- Settles O43. -/
theorem invAtReset : Obligations.InvAtReset := inv_of_uninit rfl

theorem Variant.digestLen_legal (v : Variant) : v.digestLen = 28 ∨ v.digestLen = 32 := by
  cases v
  · exact .inl rfl
  · exact .inr rfl

/-- Settles O45: DIGEST_LEN is that of the message's variant. -/
theorem invGivesLegalDigestLen : Obligations.InvGivesLegalDigestLen := by
  intro s h hne
  obtain ⟨hactive, hfinalized⟩ := (inv_iff s).mp h
  cases hp : s.phase with
  | uninit => exact absurd hp hne
  | active =>
    obtain ⟨v, m, habs⟩ := hactive hp
    rw [habs.variant]
    exact v.digestLen_legal
  | finalized =>
    obtain ⟨v, m, hfin⟩ := hfinalized hp
    rw [hfin.variant]
    exact v.digestLen_legal

end Sys2Proof.Machine
end

section
/-! The standard run: INIT, any UPDATEs and FINAL from the command stream (70_reset_and_hazards.md rule R120). -/

namespace Sys2Proof.Machine

open Sys2Proof.Assembler

/-- A step takes a well-formed command's own bytes and runs it. -/
theorem step_encode {s : State} {i : Instr} {rest : List Byte} (hwf : i.wf = true)
    (hs : s.commands = encode i ++ rest) : step s = exec i (s.setCommands rest) :=
  step_of_command (by rw [hs, decode_encode rest hwf])

theorem run_of_step {s t : State} (k : Nat) (h : step s = .next t) :
    Host.Core.run core (k + 1) s = Host.Core.run core k t := by
  rw [run_succ, h]

theorem encodeAll_cons (i : Instr) (is : List Instr) : encodeAll (i :: is) = encode i ++ encodeAll is :=
  List.flatMap_cons

/-- A step on a stream that begins with a well-formed command: it leaves the rest of the stream. -/
theorem exists_step_encodeAll {s : State} {i : Instr} {is : List Instr} {rest : List Byte} (hwf : i.wf = true)
    (hs : s.commands = encodeAll (i :: is) ++ rest) :
    ∃ t, step s = .next t ∧ exec i (s.setCommands (encodeAll is ++ rest)) = .next t ∧
      t.commands = encodeAll is ++ rest := by
  rw [encodeAll_cons, List.append_assoc] at hs
  obtain ⟨t, ht⟩ := exec_total i (s.setCommands (encodeAll is ++ rest))
  obtain ⟨-, hcommands, -⟩ := exec_streams ht
  exact ⟨t, (step_encode hwf hs).trans ht, ht, hcommands⟩

/-- From a Context that holds m, the UPDATEs and FINAL answer their 00s and the digest of the whole message. -/
theorem run_updates_final {v : Variant} {m : List Byte} {s : State} (chunks : List (List Byte)) (rest : List Byte)
    (hp : s.phase = .active) (habs : Absorbed v m s) (hlen : ∀ c ∈ chunks, c.length ≤ Config.maxUpdateLen)
    (hs : s.commands = encodeAll (chunks.map .update ++ [.final]) ++ rest) :
    ∃ t, Host.Core.run core (chunks.length + 1) s = .next t ∧ t.commands = rest ∧
      t.responses = s.responses ++
        (List.replicate chunks.length 0x00 ++ 0x00 :: shaDigest v (m ++ chunks.flatten)) := by
  induction chunks generalizing m s with
  | nil =>
    have hptaken (bs : List Byte) : (s.setCommands bs).phase = .active := hp
    obtain ⟨t, hstep, hexec, hcommands⟩ := exists_step_encodeAll (i := .final) (is := []) rfl hs
    refine ⟨t, run_of_step 0 hstep, hcommands, ?_⟩
    rw [(habs.setCommands _).exec_final_responses (hptaken _) hexec, List.flatten_nil, List.append_nil]
    rfl
  | cons c cs ih =>
    have hptaken (bs : List Byte) : (s.setCommands bs).phase = .active := hp
    obtain ⟨hc, hcs⟩ := List.forall_mem_cons.mp hlen
    obtain ⟨u, hstep, hexec, hcommands⟩ := exists_step_encodeAll (i := .update c) (decide_eq_true hc) hs
    have habsu : Absorbed v (m ++ c) u := (habs.setCommands _).exec_update (hptaken _) hexec
    obtain ⟨t, hrun, htcommands, htresponses⟩ := ih ((exec_update_phase hexec).trans hp) habsu hcs hcommands
    refine ⟨t, (run_of_step _ hstep).trans hrun, htcommands, ?_⟩
    rw [htresponses, exec_update_responses (hptaken _) hexec, State.setCommands_responses, List.flatten_cons,
      ← List.append_assoc m, List.length_cons, List.replicate_succ, List.append_assoc]
    rfl

/-- Settles O51: INIT starts the empty message in every state, and `run_updates_final` does the rest. -/
theorem anyChunkingGivesTheDigest : Obligations.AnyChunkingGivesTheDigest := by
  intro s variant chunks rest hlen _ hs
  obtain ⟨u, hstep, hexec, hcommands⟩ := exists_step_encodeAll (i := .init variant) rfl hs
  obtain ⟨-, -, hp⟩ := exec_init_empty_active hexec
  obtain ⟨t, hrun, htcommands, htresponses⟩ :=
    run_updates_final chunks rest hp (absorbed_of_exec_init hexec) hlen hcommands
  refine ⟨t, (run_of_step _ hstep).trans hrun, htcommands, ?_⟩
  rw [htresponses, exec_init_responses hexec, State.setCommands_responses, List.nil_append, List.append_assoc]
  rfl

end Sys2Proof.Machine
end
